-- ==== Sys2Proof/Word.lean ====
section
/-! DEFINITION. The values that cross the interface whole, at the widths of 00_scope.md R6 (20_memory.md R24). Bit 0 is the least significant bit (R7). -/

namespace Sys2Proof

/-- A data byte, `DATA_W` = 8 bits. -/
abbrev Byte := BitVec 8

/-- A control code, `CTRL_W` = 2 bits. -/
abbrev Ctrl := BitVec 2

/-- The intermediate code `q_m`, `QM_W` = 9 bits: 8 encoded bits and the flag bit. -/
abbrev Qm := BitVec 9

/-- A TMDS symbol, `SYM_W` = 10 bits. -/
abbrev Symbol := BitVec 10

/-- A command word, `CMD_W` = 14 bits (30_encoding.md R34). -/
abbrev CmdWord := BitVec 14

end Sys2Proof
end

