-- ==== Sys2Proof/Machine/Flags.lean ====
section
/-! DEFINITION. The bit counts of the helper units (41_helpers.md), the flag bit of `q_m` (40_encode.md R52, R53) and the choice of the DC-balance arm (R55 to R59). The block has no flags register (10_state.md R17). -/

namespace Sys2Proof.Machine

/-- The number of 1 bits among bits `n-1 .. 0` of `x`. -/
def onesBelow {w : Nat} (x : BitVec w) : Nat → Nat
  | 0 => 0
  | n + 1 => onesBelow x n + (x.getLsbD n).toNat

/-- `popcount`: the number of set bits of a byte (41_helpers.md R65). -/
def popcount (x : Byte) : Nat := onesBelow x 8

/-- `byteImbalance`: `2·popcount(x) − 8` (41_helpers.md R68). -/
def byteImbalance (x : Byte) : Int := 2 * (popcount x : Int) - 8

/-- Chain selection: the XNOR chain when the population count exceeds 4, or equals 4 with bit 0 clear (40_encode.md R52). -/
def useXnor (d : Byte) : Bool := decide (popcount d > 4) || (decide (popcount d = 4) && !d.getLsbD 0)

/-- The flag bit `q_m[8]` of a data byte: 1 for the XOR chain, 0 for the XNOR chain (40_encode.md R53). -/
def flagBit (d : Byte) : Bool := !useXnor d

/-- The flag bit of a code as the number `f` (40_encode.md R55). -/
def flagOf (q : Qm) : Int := if q.getLsbD 8 then 1 else 0

/-- The 8 encoded bits of a code, `q_m & 0xFF` (10_state.md R19). -/
def lowByte (q : Qm) : Byte := q.setWidth 8

/-- The imbalance `b` of a code (40_encode.md R55). -/
def imbalanceOf (q : Qm) : Int := byteImbalance (lowByte q)

/-- The three arms of the DC-balance stage. -/
inductive Arm where
  | a
  | b
  | c
deriving DecidableEq, Repr

/-- The arm, tested in the order A, B, C (40_encode.md R56 to R59). -/
def chooseArm (rd b : Int) : Arm :=
  if rd = 0 ∨ b = 0 then .a
  else if (rd > 0 ∧ b > 0) ∨ (rd < 0 ∧ b < 0) then .b
  else .c

end Sys2Proof.Machine
end

