-- ==== Sys2Proof/Config.lean ====
section
/-! DEFINITION. The parameters of the block that the spec fixes (00_scope.md R6). The two open parameters are not constants: `N_INST` is an argument (Machine/Platform.lean), `SERIAL_ORDER` is outside the block (R5, R24). No value of this hardware is a free value (93_implementation_defined.md, Part 1). -/

namespace Sys2Proof.Config

/-- The largest legal `data`: `DATA_W` is 8 bits (R6, R45). -/
def maxData : Nat := 255

/-- The largest legal `control`: `CTRL_W` is 2 bits (R6, R45). -/
def maxControl : Nat := 3

/-- The largest legal helper operand: `POP_W` is 8 bits (R6, R64). -/
def maxOperand : Nat := 255

/-- `CMD_W`, the width of the command word (R6, R34). -/
def cmdWidth : Nat := 14

end Sys2Proof.Config
end

