-- ==== Sys2Proof/Syntax.lean ====
section
/-! DEFINITION. The seven commands, one constructor per row of spec/opcode_table.json (30_encoding.md R37). Operands are unbounded naturals, the interface of R32 and R45, so that an out-of-range input can be issued and faults; both inputs of `encode` are kept, since both are range-checked on both paths (R45, R46). -/

namespace Sys2Proof

inductive Instr where
  /-- ENC.CTL (R50): emit the control symbol of `control`; `data` is the input the path ignores. -/
  | encCtl (control data : Nat)
  /-- ENC.DAT (R51): encode `data`; `control` is the input the path ignores. -/
  | encDat (data control : Nat)
  /-- POPCNT (R67). -/
  | popcnt (x : Nat)
  /-- BYTEIMB (R70). -/
  | byteimb (x : Nat)
  /-- RDDISP (R74). -/
  | rddisp
  /-- RDLAST (R75). -/
  | rdlast
  /-- INIT (R73). -/
  | init
deriving DecidableEq, Repr

end Sys2Proof
end

