-- ==== Sys2Proof/WellFormed.lean ====
section
/-! DEFINITION. The operand ranges of the interface (30_encoding.md R32, 40_encode.md R45, 41_helpers.md R64). A command word carries only well-formed commands; a call may carry any naturals and faults where these checks fail. -/

namespace Sys2Proof

/-- Every operand lies in its legal range. -/
def Instr.wf : Instr → Bool
  | .encCtl control data => decide (data ≤ Config.maxData) && decide (control ≤ Config.maxControl)
  | .encDat data control => decide (data ≤ Config.maxData) && decide (control ≤ Config.maxControl)
  | .popcnt x => decide (x ≤ Config.maxOperand)
  | .byteimb x => decide (x ≤ Config.maxOperand)
  | .rddisp => true
  | .rdlast => true
  | .init => true

end Sys2Proof
end

