-- ==== Sys2Proof/Decode.lean ====
section
/-! DEFINITION. The 14-bit command word: its fields (30_encoding.md R34), decoding (R35, R36, R39), the opcode map (R37) and the encoder (R42). Decoding is total: every word gives a command or a named reason why it is reserved. -/

namespace Sys2Proof

/-- `OP`, bits 13:11 (R34). -/
def opField (w : CmdWord) : BitVec 3 := w.extractLsb' 11 3

/-- `DE`, bit 10 (R34). -/
def deField (w : CmdWord) : BitVec 1 := w.extractLsb' 10 1

/-- `C`, bits 9:8 (R34). -/
def cField (w : CmdWord) : Ctrl := w.extractLsb' 8 2

/-- `X`, bits 7:0 (R34). -/
def xField (w : CmdWord) : Byte := w.extractLsb' 0 8

/-- Bits 10:8, the reserved-zero bits of POPCNT and BYTEIMB (R36). -/
def midField (w : CmdWord) : BitVec 3 := w.extractLsb' 8 3

/-- Bits 10:0, the reserved-zero bits of RDDISP, RDLAST and INIT (R36). -/
def lowField (w : CmdWord) : BitVec 11 := w.extractLsb' 0 11

/-- Why a word is reserved (R39). -/
inductive ReservedWord where
  /-- `OP` is 110 or 111. -/
  | reservedOp
  /-- `OP` is 001 to 101 and a reserved-zero bit is set. -/
  | reservedBits
deriving DecidableEq, Repr

/-- A command whose reserved-zero bits are clear, else the word is reserved (R36, R39). -/
def ifZero (reservedZero : Bool) (i : Instr) : Except ReservedWord Instr :=
  if reservedZero then .ok i else .error .reservedBits

/-- The command a word selects, or why it is reserved (R35, R36, R39). `X` of ENC.CTL and `C` of ENC.DAT are don't care: they
select no other command and are carried as the input the path ignores. -/
def decode (w : CmdWord) : Except ReservedWord Instr :=
  match (opField w).toNat with
  | 0 =>
    if deField w = 1#1 then .ok (.encDat (xField w).toNat (cField w).toNat)
    else .ok (.encCtl (cField w).toNat (xField w).toNat)
  | 1 => ifZero (midField w == 0#3) (.popcnt (xField w).toNat)
  | 2 => ifZero (midField w == 0#3) (.byteimb (xField w).toNat)
  | 3 => ifZero (lowField w == 0#11) .rddisp
  | 4 => ifZero (lowField w == 0#11) .rdlast
  | 5 => ifZero (lowField w == 0#11) .init
  | _ => .error .reservedOp

/-- What the host's numbering of a table word decodes to. The block stores no program (92_eei_decisions.md D2), so a word has no
byte layout: its bits are the command word's, and a number with a bit at or above bit 14 is no command word. -/
def decodeTableWord (nbits w : Nat) : Option Instr :=
  if w % 2 ^ nbits < 2 ^ Config.cmdWidth then (decode (BitVec.ofNat 14 (w % 2 ^ nbits))).toOption else none

/-- The word with the given fields: `(OP << 11) | (DE << 10) | (C << 8) | X` (R34, R42). -/
def packWord (op : BitVec 3) (de : BitVec 1) (c : Ctrl) (x : Byte) : CmdWord :=
  (op.setWidth 14 <<< 11) ||| (de.setWidth 14 <<< 10) ||| (c.setWidth 14 <<< 8) ||| x.setWidth 14

/-- The word of a well-formed command (R42). -/
def encode : Instr → CmdWord
  | .encCtl control data => packWord 0 0 (BitVec.ofNat 2 control) (BitVec.ofNat 8 data)
  | .encDat data control => packWord 0 1 (BitVec.ofNat 2 control) (BitVec.ofNat 8 data)
  | .popcnt x => packWord 1 0 0 (BitVec.ofNat 8 x)
  | .byteimb x => packWord 2 0 0 (BitVec.ofNat 8 x)
  | .rddisp => packWord 3 0 0 0
  | .rdlast => packWord 4 0 0 0
  | .init => packWord 5 0 0 0

/-- The mnemonic of a command (R42). -/
def Instr.mnemonic : Instr → String
  | .encCtl _ _ => "ENC.CTL"
  | .encDat _ _ => "ENC.DAT"
  | .popcnt _ => "POPCNT"
  | .byteimb _ => "BYTEIMB"
  | .rddisp => "RDDISP"
  | .rdlast => "RDLAST"
  | .init => "INIT"

/-- A row of the opcode map (R37). -/
structure OpRow where
  mnemonic : String
  pattern : CmdWord
  mask : CmdWord
deriving DecidableEq, Repr

/-- The opcode map, as R37 lists it. -/
def opcodeMap : List OpRow :=
  [ { mnemonic := "ENC.CTL", pattern := 0x0000#14, mask := 0x3C00#14 },
    { mnemonic := "ENC.DAT", pattern := 0x0400#14, mask := 0x3C00#14 },
    { mnemonic := "POPCNT", pattern := 0x0800#14, mask := 0x3F00#14 },
    { mnemonic := "BYTEIMB", pattern := 0x1000#14, mask := 0x3F00#14 },
    { mnemonic := "RDDISP", pattern := 0x1800#14, mask := 0x3FFF#14 },
    { mnemonic := "RDLAST", pattern := 0x2000#14, mask := 0x3FFF#14 },
    { mnemonic := "INIT", pattern := 0x2800#14, mask := 0x3FFF#14 } ]

/-- A word matches a row: its bits under the mask are the row's (R37). -/
def OpRow.hits (r : OpRow) (w : CmdWord) : Bool := w &&& r.mask == r.pattern

/-- The source's call spelling `encode(data, control, dataEnable)`, the one pseudo-form (R42, 40_encode.md R44). -/
def Instr.ofCall (data control : Nat) (dataEnable : Bool) : Instr :=
  if dataEnable then .encDat data control else .encCtl control data

end Sys2Proof
end

