-- ==== Sys2Proof/Machine/State.lean ====
section
/-! DEFINITION. The state of one encoder instance (10_state.md), its fault record (60_exceptions.md R81, R83), and the ways a step can stop. -/

namespace Sys2Proof.Machine

/-- The ghost operating state (10_state.md R16): no rule's result reads it. -/
inductive Mode where
  | blanking
  | active
deriving DecidableEq, Repr

/-- The content of `FAULT`: the code and its info (60_exceptions.md R81). -/
inductive FaultRecord where
  /-- Code 1, `DATA_RANGE`: `data > 255`; the offending value. -/
  | dataRange (data : Nat)
  /-- Code 2, `CONTROL_RANGE`: `control > 3`; the offending value. -/
  | controlRange (control : Nat)
  /-- Code 3, `HELPER_RANGE`: helper operand `> 255`; the offending value. -/
  | helperRange (operand : Nat)
  /-- Code 4, `RESERVED_COMMAND`: the reserved command word. -/
  | reservedCommand (word : CmdWord)
  /-- Code 5, `NO_VALUE`: RDLAST with `LSV` = 0; no info. -/
  | noValue
deriving DecidableEq, Repr

/-- A value on the result output `out` (30_encoding.md R38). -/
inductive Out where
  /-- ENC.CTL, ENC.DAT and RDLAST: a 10-bit symbol. -/
  | symbol (s : Symbol)
  /-- POPCNT: 4 bits, 0..8. -/
  | count (n : BitVec 4)
  /-- BYTEIMB: 5-bit two's complement, -8..+8. -/
  | imbalance (b : BitVec 5)
  /-- RDDISP: the value of `RD`, signed. -/
  | disparity (v : Int)
deriving DecidableEq, Repr

/-- One command of the caller's stream: a command word (30_encoding.md R34), or the operation as a structured value with
unbounded inputs (R32, R34, R45). -/
inductive Command where
  | word (w : CmdWord)
  | op (i : Instr)
deriving DecidableEq, Repr

/-- Everything the spec gives one instance, and the commands its caller has yet to issue. -/
structure State where
  /-- The instance exists: INIT has created it (70_reset_and_hazards.md R90, R91). -/
  created : Bool
  /-- `RD`, the running disparity (10_state.md R12), held as the exact integer that R6, R13 and D4 admit. -/
  rd : Int
  /-- `LS` with `LSV`: no value exactly when `LSV` = 0 (10_state.md R15, R20). -/
  ls : Option Symbol
  /-- The ghost `MODE` (10_state.md R16). -/
  mode : Mode
  /-- `FAULT`, empty until a command faults (10_state.md R17, 60_exceptions.md R83). -/
  fault : Option FaultRecord
  /-- `out`: what the last command drove (30_encoding.md R38). -/
  out : Option Out
  /-- The caller's commands not yet issued, next first (92_eei_decisions.md D2). -/
  pending : List Command
deriving DecidableEq, Repr

/-- Why a step stops with a fault. -/
inductive Fault where
  /-- Raised for any command offered to an instance whose `FAULT` is set: it has stopped for good and takes none
  (60_exceptions.md R83, R85). SAFE: the model is stuck where the spec says the instance takes no further command. -/
  | stopped (record : FaultRecord)
deriving DecidableEq, Repr

/-- Why a step is refused. -/
inductive Refusal where
  /-- Raised by a refused arm of `exec`, for an instruction without a meaning; no arm is refused. SAFE: the model stops. -/
  | notModelled (mnemonic : String)
  /-- Raised for any command but INIT to an instance that INIT has not created (70_reset_and_hazards.md R91, D23, U8).
  SAFE: the spec says a model refuses such a run. -/
  | beforeInit
  /-- Raised by `step` when the caller has no command left to issue (42_lifecycle_diag.md R77: a model simply stops
  issuing commands). SAFE: nothing happens in the block. -/
  | noCommand
deriving DecidableEq, Repr

/-- The reset state: an instance INIT has just created (10_state.md R20, 70_reset_and_hazards.md R90), with no command
waiting. -/
def State.reset : State :=
  { created := true, rd := 0, ls := none, mode := .blanking, fault := none, out := none, pending := [] }

/-- An instance before its INIT: it does not exist yet (70_reset_and_hazards.md R90). -/
def State.uncreated : State := { State.reset with created := false }

end Sys2Proof.Machine
end

