-- ==== Sys2Proof/Machine/Ops.lean ====
section
/-! DEFINITION. The named operations over the state: reading LSV, taking a command, taking a fault, driving `out`, emitting a symbol, creating the instance. The block has no memory (20_memory.md R23), so there are no memory operations. -/

namespace Sys2Proof.Machine

/-- `LSV`, the valid bit of `LS` (10_state.md R15). -/
def State.lsv (s : State) : Bool := s.ls.isSome

/-- The number of a fault (60_exceptions.md R81). -/
def FaultRecord.code : FaultRecord → Nat
  | .dataRange _ => 1
  | .controlRange _ => 2
  | .helperRange _ => 3
  | .reservedCommand _ => 4
  | .noValue => 5

/-- The instance takes a command: it exists (70_reset_and_hazards.md R91) and has not stopped (60_exceptions.md R83). -/
def State.live (s : State) : Bool := s.created && s.fault.isNone

/-- Give a command to the instance: refused before INIT (70_reset_and_hazards.md R91), stuck once `FAULT` is set
(60_exceptions.md R83), else the command's own meaning `k`. -/
def takeCommand (s : State) (k : Host.Outcome State Fault Refusal) : Host.Outcome State Fault Refusal :=
  if s.created then
    match s.fault with
    | some r => .fault (.stopped r)
    | none => k
  else .refused .beforeInit

/-- The state after a fault (60_exceptions.md R83): `RD`, `LS` and `LSV` are kept, no result is driven, `FAULT` records code
and info. -/
def recordFault (r : FaultRecord) (s : State) : State := { s with fault := some r, out := none }

/-- Taking a fault, the block's only exception (60_exceptions.md R78, R83): the next state holds the record, and the instance
takes no command after it. There is no vector, no saved pc and no mode change (R83), and no return from a fault (R85). -/
def takeFault (r : FaultRecord) (s : State) : Host.Outcome State Fault Refusal := .next (recordFault r s)

/-- A command that drives `v` and writes no state (30_encoding.md R38). -/
def drive (v : Out) (s : State) : State := { s with out := some v }

/-- A command that emits `y`: `RD <- rd`, `LS <- y`, `LSV <- 1`, `out <- y`, and the ghost `MODE` (40_encode.md R44, R50,
R51). -/
def emitSymbol (y : Symbol) (rd : Int) (m : Mode) (s : State) : State :=
  { s with rd := rd, ls := some y, mode := m, out := some (.symbol y) }

/-- Creation or re-creation: `RD <- 0`, `LSV <- 0`, no result, `MODE` blanking (42_lifecycle_diag.md R73); `FAULT` is empty at
creation (10_state.md R20). -/
def createInstance (s : State) : State :=
  { s with created := true, rd := 0, ls := none, mode := .blanking, fault := none, out := none }

/-- The caller's next command, and the state with it issued (20_memory.md R28: in issue order, one at a time). -/
def nextCommand (s : State) : Option (Command × State) :=
  match s.pending with
  | [] => none
  | c :: rest => some (c, { s with pending := rest })

/-- The operation a command asks for, or the reserved word it is (30_encoding.md R37, R39). -/
def readCommand : Command → Except CmdWord Instr
  | .op i => .ok i
  | .word w =>
    match decode w with
    | .ok i => .ok i
    | .error _ => .error w

/-- Executing a reserved word: `RESERVED_COMMAND` with the word (30_encoding.md R39, 60_exceptions.md R81). -/
def execReserved (w : CmdWord) (s : State) : Host.Outcome State Fault Refusal :=
  takeCommand s (takeFault (.reservedCommand w) s)

/-- The caller puts a command word in front of its stream. A number with a bit at or above bit 14 is no command word
(30_encoding.md R37), so nothing is issued. -/
def issueWord (v : Nat) (s : State) : State :=
  if v < 2 ^ Config.cmdWidth then { s with pending := .word (BitVec.ofNat 14 v) :: s.pending }
  else { s with pending := [] }

end Sys2Proof.Machine
end

