-- ==== Sys2Proof/Machine/Operands.lean ====
section
/-! DEFINITION. The operand forms: the range checks of unbounded inputs, and the bit vectors of inputs in range (40_encode.md R45, 41_helpers.md R64). Masking and saturation are not admitted (60_exceptions.md R80): a conversion is used only after its check. -/

namespace Sys2Proof.Machine

/-- The checks of both ENC paths, `data` first (40_encode.md R45, 60_exceptions.md R82). -/
def encFault (data control : Nat) : Option FaultRecord :=
  if data > Config.maxData then some (.dataRange data)
  else if control > Config.maxControl then some (.controlRange control)
  else none

/-- The check of the helper units (41_helpers.md R64). -/
def helperFault (x : Nat) : Option FaultRecord := if x > Config.maxOperand then some (.helperRange x) else none

/-- A checked 8-bit operand as a byte. -/
def byteOf (x : Nat) : Byte := BitVec.ofNat 8 x

/-- A checked control code as two bits. -/
def ctrlOf (c : Nat) : Ctrl := BitVec.ofNat 2 c

/-- A command whose operands have been checked: the fault if there is one, else the next state `t` (60_exceptions.md R79). -/
def checked (f : Option FaultRecord) (s t : State) : Host.Outcome State Fault Refusal :=
  takeCommand s
    (match f with
     | some r => takeFault r s
     | none => .next t)

end Sys2Proof.Machine
end

