-- ==== Sys2Proof/Machine/Encode.lean ====
section
/-! DEFINITION. The encode operation (40_encode.md): ENC.CTL and ENC.DAT. -/

namespace Sys2Proof.Machine

/-- `CTRL_SYM`, the four control symbols (10_state.md R18). -/
def ctrlSym (c : Ctrl) : Symbol :=
  match c.toNat with
  | 0 => 0x354#10
  | 1 => 0x0AB#10
  | 2 => 0x154#10
  | _ => 0x2AB#10

/-- `INV_MASK` (10_state.md R19, 90_conflicts.md C2: a 10-bit value). -/
def invMask : Symbol := 0x2FF#10

/-- Bit `i` of the chain: the seed `data[0]`, then XOR or XNOR of the bit just produced with `data[i]` (40_encode.md R53). -/
def chainBit (xnor : Bool) (d : Byte) : Nat → Bool
  | 0 => d.getLsbD 0
  | i + 1 =>
    if xnor then !(Bool.xor (chainBit xnor d i) (d.getLsbD (i + 1)))
    else Bool.xor (chainBit xnor d i) (d.getLsbD (i + 1))

/-- The eight encoded bits, bit 0 first (40_encode.md R53, 30_encoding.md R43). -/
def chainByte (xnor : Bool) (d : Byte) : Byte :=
  BitVec.ofBoolListLE
    [chainBit xnor d 0, chainBit xnor d 1, chainBit xnor d 2, chainBit xnor d 3,
     chainBit xnor d 4, chainBit xnor d 5, chainBit xnor d 6, chainBit xnor d 7]

/-- Stage 1, transition minimization: the 9-bit `q_m`, flag bit on top (40_encode.md R52, R53). -/
def minimize (d : Byte) : Qm := BitVec.cons (flagBit d) (chainByte (useXnor d) d)

/-- `q_m` unmodified, as a symbol with bit 9 clear. -/
def plainSymbol (q : Qm) : Symbol := q.setWidth 10

/-- `q_m` XOR `INV_MASK`. -/
def invertedSymbol (q : Qm) : Symbol := plainSymbol q ^^^ invMask

/-- Stage 2, the emitted symbol (40_encode.md R56 to R58). -/
def balanceSymbol (rd : Int) (q : Qm) : Symbol :=
  match chooseArm rd (imbalanceOf q) with
  | .a => if flagOf q = 1 then plainSymbol q else invertedSymbol q
  | .b => invertedSymbol q
  | .c => plainSymbol q

/-- Stage 2, the new `RD`, in exact integers (40_encode.md R56 to R58, 00_scope.md R8). -/
def balanceDisparity (rd : Int) (q : Qm) : Int :=
  match chooseArm rd (imbalanceOf q) with
  | .a => if flagOf q = 1 then rd + imbalanceOf q else rd - imbalanceOf q
  | .b => rd + 2 * flagOf q - imbalanceOf q
  | .c => rd + imbalanceOf q - 2 * (1 - flagOf q)

/-- The data symbol of `d` at disparity `rd` (40_encode.md R51). -/
def dataSymbol (rd : Int) (d : Byte) : Symbol := balanceSymbol rd (minimize d)

/-- The disparity after the data symbol of `d` at disparity `rd` (40_encode.md R51). -/
def dataDisparity (rd : Int) (d : Byte) : Int := balanceDisparity rd (minimize d)

/-- ENC.CTL (40_encode.md R50). -/
def execEncCtl (control data : Nat) (s : State) : Host.Outcome State Fault Refusal :=
  checked (encFault data control) s (emitSymbol (ctrlSym (ctrlOf control)) 0 .blanking s)

/-- ENC.DAT (40_encode.md R51). -/
def execEncDat (data control : Nat) (s : State) : Host.Outcome State Fault Refusal :=
  checked (encFault data control) s
    (emitSymbol (dataSymbol s.rd (byteOf data)) (dataDisparity s.rd (byteOf data)) .active s)

end Sys2Proof.Machine
end

