-- ==== Sys2Proof/Machine/Helpers.lean ====
section
/-! DEFINITION. The helper units as commands (41_helpers.md): POPCNT and BYTEIMB. Both are pure (R63). -/

namespace Sys2Proof.Machine

/-- POPCNT: `out <- zext_4(popcount(x))` (41_helpers.md R67). -/
def execPopcnt (x : Nat) (s : State) : Host.Outcome State Fault Refusal :=
  checked (helperFault x) s (drive (.count (BitVec.ofNat 4 (popcount (byteOf x)))) s)

/-- BYTEIMB: `out <- sext_5(2 * popcount(x) - 8)` (41_helpers.md R70). -/
def execByteimb (x : Nat) (s : State) : Host.Outcome State Fault Refusal :=
  checked (helperFault x) s (drive (.imbalance (BitVec.ofInt 5 (byteImbalance (byteOf x)))) s)

end Sys2Proof.Machine
end

