-- ==== Sys2Proof/Machine/Lifecycle.lean ====
section
/-! DEFINITION. The lifecycle and diagnostic commands (42_lifecycle_diag.md): RDDISP, RDLAST and INIT. -/

namespace Sys2Proof.Machine

/-- RDDISP: `out <- RD` (42_lifecycle_diag.md R74). -/
def execRddisp (s : State) : Host.Outcome State Fault Refusal := checked none s (drive (.disparity s.rd) s)

/-- RDLAST: `out <- LS`, and `NO_VALUE` when `LSV` = 0 (42_lifecycle_diag.md R75). -/
def execRdlast (s : State) : Host.Outcome State Fault Refusal :=
  match s.ls with
  | none => checked (some .noValue) s s
  | some y => checked none s (drive (.symbol y) s)

/-- INIT: create, or re-create, the instance (42_lifecycle_diag.md R73). It is the one command an instance that does not
exist takes (70_reset_and_hazards.md R91); it does not clear a fault (60_exceptions.md R83). -/
def execInit (s : State) : Host.Outcome State Fault Refusal :=
  if s.created then checked none s (createInstance s) else .next (createInstance s)

end Sys2Proof.Machine
end

