-- ==== Sys2Proof/Machine/Dispatch.lean ====
section
/-! DEFINITION. The dispatch of the seven commands to their meanings, one arm per constructor of Instr. -/

namespace Sys2Proof.Machine

def exec (i : Instr) (s : State) : Host.Outcome State Fault Refusal :=
  match i with
  | .encCtl control data => Sys2Proof.Machine.execEncCtl control data s
  | .encDat data control => Sys2Proof.Machine.execEncDat data control s
  | .popcnt x => Sys2Proof.Machine.execPopcnt x s
  | .byteimb x => Sys2Proof.Machine.execByteimb x s
  | .rddisp => Sys2Proof.Machine.execRddisp s
  | .rdlast => Sys2Proof.Machine.execRdlast s
  | .init => Sys2Proof.Machine.execInit s

end Sys2Proof.Machine
end

