-- ==== Sys2Proof/Machine/Step.lean ====
section
/-! DEFINITION. One step: the instance takes the caller's next command (00_scope.md R10, 20_memory.md R28). -/

namespace Sys2Proof.Machine

/-- Issue the next command of the stream and execute it; a reserved word faults (30_encoding.md R39). -/
def step (s : State) : Host.Outcome State Fault Refusal :=
  match nextCommand s with
  | none => .refused .noCommand
  | some (c, t) =>
    match readCommand c with
    | .ok i => exec i t
    | .error w => execReserved w t

/-- The state in which the caller issues the table word next (spec/opcode_table.json numbers its bits as the command word
does). -/
def State.withFetchWord (s : State) (nbits w : Nat) : State := issueWord (w % 2 ^ nbits) s

end Sys2Proof.Machine
end

