-- ==== Sys2Proof/Machine/Circuit.lean ====
section
/-! DEFINITION. The two equivalent forms the spec offers an implementer of ENC.DAT: the closed forms of stage 1 (40_encode.md R54) and the 5-bit two's complement `RD` register (10_state.md R13, 92_eei_decisions.md D4). No meaning calls them; obligations state that they agree with the meanings. -/

namespace Sys2Proof.Machine

/-- The parity of bits `i .. 0` of a byte (40_encode.md R54). -/
def parityUpTo (d : Byte) : Nat → Bool
  | 0 => d.getLsbD 0
  | i + 1 => Bool.xor (parityUpTo d i) (d.getLsbD (i + 1))

/-- The prefix parities as a byte: the closed form of the XOR chain (40_encode.md R54). -/
def parityByte (d : Byte) : Byte :=
  BitVec.ofBoolListLE
    [parityUpTo d 0, parityUpTo d 1, parityUpTo d 2, parityUpTo d 3,
     parityUpTo d 4, parityUpTo d 5, parityUpTo d 6, parityUpTo d 7]

/-- `q_m` by the closed forms: the XNOR chain is the XOR chain with the odd bits inverted (40_encode.md R54). -/
def minimizeClosed (d : Byte) : Qm :=
  if useXnor d then BitVec.cons false (parityByte d ^^^ 0xAA#8) else BitVec.cons true (parityByte d)

/-- The number of ones of a byte, summed in a 5-bit adder. -/
def onesRegister (x : Byte) : BitVec 5 :=
  (x.extractLsb' 0 1).setWidth 5 + (x.extractLsb' 1 1).setWidth 5 + (x.extractLsb' 2 1).setWidth 5 +
    (x.extractLsb' 3 1).setWidth 5 + (x.extractLsb' 4 1).setWidth 5 + (x.extractLsb' 5 1).setWidth 5 +
    (x.extractLsb' 6 1).setWidth 5 + (x.extractLsb' 7 1).setWidth 5

/-- The imbalance of a code in 5-bit two's complement. -/
def imbalanceRegister (q : Qm) : BitVec 5 := (onesRegister (lowByte q) <<< 1) - 8#5

/-- The arm, from zero tests and sign bits of 5-bit registers. -/
def armRegister (r b : BitVec 5) : Arm :=
  if r = 0#5 ∨ b = 0#5 then .a else if r.msb = b.msb then .b else .c

/-- The symbol of ENC.DAT with a 5-bit `RD` register. -/
def symbolRegister (r : BitVec 5) (q : Qm) : Symbol :=
  match armRegister r (imbalanceRegister q) with
  | .a => if q.getLsbD 8 then plainSymbol q else invertedSymbol q
  | .b => invertedSymbol q
  | .c => plainSymbol q

/-- The next value of a 5-bit `RD` register, in 5-bit arithmetic. -/
def disparityRegister (r : BitVec 5) (q : Qm) : BitVec 5 :=
  match armRegister r (imbalanceRegister q) with
  | .a => if q.getLsbD 8 then r + imbalanceRegister q else r - imbalanceRegister q
  | .b => r + (if q.getLsbD 8 then 2#5 else 0#5) - imbalanceRegister q
  | .c => r + imbalanceRegister q - (if q.getLsbD 8 then 0#5 else 2#5)

end Sys2Proof.Machine
end

