-- ==== Sys2Proof/Machine/Platform.lean ====
section
/-! DEFINITION. A system of `n` encoder instances, `n` the open parameter `N_INST` (60_exceptions.md R87, 92_eei_decisions.md D25). Each instance has its own state and its own caller; the block defines no instance identifier, so an index names an instance's caller (R87). -/

namespace Sys2Proof.Machine

/-- `n` instances, each with its own `RD`, `LS`, `LSV` and `FAULT` (60_exceptions.md R87). -/
abbrev Platform (n : Nat) := Vector State n

/-- Instances not yet created: each starts by its own INIT (60_exceptions.md R87). -/
def Platform.start (n : Nat) : Platform n := Vector.replicate n State.uncreated

/-- One instance after its next command, or as it was when it takes none (DESIGN CHOICE, safe, log entry 9). -/
def stepOrStay (s : State) : State :=
  match step s with
  | .next t => t
  | .fault _ => s
  | .refused _ => s

/-- The caller of instance `k` issues its next command: only that instance moves (20_memory.md R29); one that has stopped
stops no other (60_exceptions.md R83). -/
def stepAt {n : Nat} (sys : Platform n) (k : Fin n) : Platform n := sys.set k (stepOrStay sys[k])

/-- An interleaving of the callers' commands: whose turn it is, in order (20_memory.md R29). -/
def interleave {n : Nat} (sys : Platform n) (turns : List (Fin n)) : Platform n := turns.foldl stepAt sys

/-- `m` turns of one instance alone. -/
def runAlone : Nat → State → State
  | 0, s => s
  | m + 1, s => runAlone m (stepOrStay s)

end Sys2Proof.Machine
end

