-- ==== Sys2Proof/Safety.lean ====
section
/-! DEFINITION. The terms claims are stated in: the legal states (10_state.md R13, R14, R16), runs of a command stream, what a stream emitted (R21), and which faults the rules give a command (60_exceptions.md R82). -/

namespace Sys2Proof.Machine

/-- The reachable values of `RD` (10_state.md R13): even, in -8..+8. -/
abbrev legalDisparity (v : Int) : Prop := v % 2 = 0 ∧ -8 ≤ v ∧ v ≤ 8

/-- The invariant of one instance: `RD` legal (10_state.md R13, R14); in blanking `RD` is 0, "disparity pinned at 0" (R16); in
active a symbol has been emitted, so `LSV` = 1 (R15, R16). -/
abbrev State.Inv (s : State) : Prop :=
  legalDisparity s.rd ∧ (s.mode = .blanking → s.rd = 0) ∧ (s.mode = .active → s.lsv = true)

/-- Execute operations in order (20_memory.md R28), stopping where one stops. -/
def runOps : List Instr → State → Host.Outcome State Fault Refusal
  | [], s => .next s
  | i :: rest, s =>
    match exec i s with
    | .next t => runOps rest t
    | .fault r => .fault r
    | .refused r => .refused r

/-- The disparity of a symbol: ones minus zeros among its 10 bits (10_state.md R21). -/
def symbolDisparity (y : Symbol) : Int := 2 * (onesBelow y 10 : Int) - 10

/-- The data symbol a step of `i` emitted into `t`, if it emitted one. -/
def emittedData : Instr → State → Option Symbol
  | .encDat _ _, t =>
    match t.out with
    | some (.symbol y) => some y
    | _ => none
  | _, _ => none

/-- The symbol a step of `i` emitted into `t`: ENC.CTL and ENC.DAT emit (40_encode.md R44). -/
def emittedSymbol : Instr → State → Option Symbol
  | .encCtl _ _, t =>
    match t.out with
    | some (.symbol y) => some y
    | _ => none
  | i, t => emittedData i t

/-- The sum of the disparities of the data symbols emitted since the later of INIT and the last ENC.CTL, carried over a step of
`i` into `t` (10_state.md R21). -/
def carryBalance (acc : Int) (i : Instr) (t : State) : Int :=
  match i with
  | .encCtl _ _ => if t.fault.isNone then 0 else acc
  | .init => 0
  | i =>
    match emittedData i t with
    | some y => acc + symbolDisparity y
    | none => acc

/-- Execute operations and carry that sum. -/
def runBalance : List Instr → Int → State → Option (Int × State)
  | [], acc, s => some (acc, s)
  | i :: rest, acc, s =>
    match exec i s with
    | .next t => runBalance rest (carryBalance acc i t) t
    | .fault _ => none
    | .refused _ => none

/-- The symbols a run emits, in order. -/
def emittedSymbols : List Instr → State → List Symbol
  | [], _ => []
  | i :: rest, s =>
    match exec i s with
    | .next t => (emittedSymbol i t).toList ++ emittedSymbols rest t
    | .fault _ => []
    | .refused _ => []

/-- The commands that write no encoder state: the helpers and the diagnostic reads (41_helpers.md R63, 42_lifecycle_diag.md
R76). -/
def observesOnly : Instr → Bool
  | .encCtl _ _ => false
  | .encDat _ _ => false
  | .popcnt _ => true
  | .byteimb _ => true
  | .rddisp => true
  | .rdlast => true
  | .init => false

/-- The pairs `d`, `d ^ 1` of a table of data values, as ENC.DAT commands (70_reset_and_hazards.md R95). -/
def pairStream : List Byte → List Instr
  | [] => []
  | d :: rest => .encDat d.toNat 0 :: .encDat (d ^^^ 1#8).toNat 0 :: pairStream rest

/-- The `data` input a command carries. -/
def dataInput : Instr → Option Nat
  | .encCtl _ data => some data
  | .encDat data _ => some data
  | _ => none

/-- The `control` input a command carries. -/
def controlInput : Instr → Option Nat
  | .encCtl control _ => some control
  | .encDat _ control => some control
  | _ => none

/-- The helper operand a command carries. -/
def helperInput : Instr → Option Nat
  | .popcnt x => some x
  | .byteimb x => some x
  | _ => none

/-- Every fault the rules give an operation in a state, in the priority order of 60_exceptions.md R82. -/
def operationFaults (i : Instr) (s : State) : List FaultRecord :=
  ((dataInput i).filter (· > 255)).toList.map .dataRange ++
    ((controlInput i).filter (· > 3)).toList.map .controlRange ++
    ((helperInput i).filter (· > 255)).toList.map .helperRange ++
    (if i = .rdlast ∧ s.lsv = false then [.noValue] else [])

/-- A reserved word, from its fields (30_encoding.md R39): `OP` 110 or 111, or `OP` in 001..101 with a reserved-zero bit of R36
set. -/
def reservedWord (w : CmdWord) : Prop :=
  opField w = 6#3 ∨ opField w = 7#3 ∨
    ((opField w = 1#3 ∨ opField w = 2#3) ∧ midField w ≠ 0#3) ∨
    ((opField w = 3#3 ∨ opField w = 4#3 ∨ opField w = 5#3) ∧ lowField w ≠ 0#11)

end Sys2Proof.Machine
end

