-- ==== Sys2Proof/Certificates/Slice0/Obligations.lean ====
section
/-! DEFINITION. The statements for the provers. Each docstring names the rule of spec/ it formalises. No statement rests on a free value: this hardware has none. Where a statement speaks of `out`, the value is what the command drove (30_encoding.md R38); `pending` is the caller's stream, the model's own field (log entry 6). -/

open Sys2Proof Sys2Proof.Machine

/-! ### The command word -/

/-- Every well-formed command decodes from its encoding, with every operand at every value the word admits (30_encoding.md R34,
R36, R42). -/
def Obligations.DecodeEncodeRoundTrip : Prop :=
  ∀ i : Instr, i.wf = true → decode (encode i) = .ok i

/-- A word that selects a command is that command's encoding, and the command is well-formed: no bit of the word is dropped,
the don't-care fields included (30_encoding.md R34, R36). -/
def Obligations.EncodeDecodeRoundTrip : Prop :=
  ∀ (w : CmdWord) (i : Instr), decode w = .ok i → i.wf = true ∧ encode i = w

/-- The opcode map (30_encoding.md R37): its rows, no word matches two of them, a word selects a command exactly when it matches
that command's row, and a word that matches no row is reserved. -/
def Obligations.OpcodeMapSelectsOneCommand : Prop :=
  opcodeMap.map (fun r => (r.mnemonic, r.pattern.toNat, r.mask.toNat)) =
    [("ENC.CTL", 0x0000, 0x3C00), ("ENC.DAT", 0x0400, 0x3C00), ("POPCNT", 0x0800, 0x3F00), ("BYTEIMB", 0x1000, 0x3F00),
     ("RDDISP", 0x1800, 0x3FFF), ("RDLAST", 0x2000, 0x3FFF), ("INIT", 0x2800, 0x3FFF)] ∧
  ∀ w : CmdWord,
    (∀ r ∈ opcodeMap, ∀ r' ∈ opcodeMap, r.hits w = true → r'.hits w = true → r = r') ∧
    (∀ i, decode w = .ok i → ∃ r ∈ opcodeMap, r.hits w = true ∧ r.mnemonic = i.mnemonic) ∧
    (∀ r ∈ opcodeMap, r.hits w = true → ∃ i, decode w = .ok i ∧ i.mnemonic = r.mnemonic) ∧
    ((∀ r ∈ opcodeMap, r.hits w = false) ↔ ∃ e, decode w = .error e)

/-- Reserved words (30_encoding.md R39): which they are, and that executing one raises RESERVED_COMMAND and writes no state. -/
def Obligations.ReservedWordsFault : Prop :=
  ∀ w : CmdWord,
    (reservedWord w ↔ ∃ e, decode w = .error e) ∧
    (reservedWord w → ∀ (s : State) (rest : List Command), s.live = true → s.pending = .word w :: rest →
      step s = .next { s with pending := rest, fault := some (.reservedCommand w), out := none })

/-- The encoding formula `cmd = (OP << 11) | (DE << 10) | (C << 8) | X` and the pseudo-form `encode(d, c, de)` (30_encoding.md
R42). -/
def Obligations.EncodingFormula : Prop :=
  (∀ c d : Nat, c ≤ 3 → d ≤ 255 →
    (encode (.ofCall d c false)).toNat = (0 <<< 11) ||| (0 <<< 10) ||| (c <<< 8) ||| d ∧
    (encode (.ofCall d c true)).toNat = (0 <<< 11) ||| (1 <<< 10) ||| (c <<< 8) ||| d) ∧
  (∀ x : Nat, x ≤ 255 →
    (encode (.popcnt x)).toNat = (1 <<< 11) ||| x ∧ (encode (.byteimb x)).toNat = (2 <<< 11) ||| x) ∧
  (encode .rddisp).toNat = 3 <<< 11 ∧ (encode .rdlast).toNat = 4 <<< 11 ∧ (encode .init).toNat = 5 <<< 11

/-- Words written out from the bit patterns of 30_encoding.md R37 decode to the commands they stand for. -/
def Obligations.SpecWordsDecode : Prop :=
  decode 0b00001011111111#14 = .ok (.encCtl 2 0xFF) ∧
  decode 0b00011100000001#14 = .ok (.encDat 0x01 3) ∧
  decode 0b00100010100101#14 = .ok (.popcnt 0xA5) ∧
  decode 0b01000000001111#14 = .ok (.byteimb 0x0F) ∧
  decode 0b01100000000000#14 = .ok .rddisp ∧
  decode 0b10000000000000#14 = .ok .rdlast ∧
  decode 0b10100000000000#14 = .ok .init ∧
  decode 0b11000000000000#14 = .error .reservedOp ∧
  decode 0b00100100000000#14 = .error .reservedBits

/-- A step takes the caller's next command and executes it: a word's decoded command, or the operation itself; with no command
left there is no step (00_scope.md R10, 20_memory.md R28, 42_lifecycle_diag.md R77). -/
def Obligations.StepRunsDecodedCommand : Prop :=
  (∀ (s : State) (w : CmdWord) (i : Instr) (rest : List Command), s.pending = .word w :: rest → decode w = .ok i →
    step s = exec i { s with pending := rest }) ∧
  (∀ (s : State) (i : Instr) (rest : List Command), s.pending = .op i :: rest →
    step s = exec i { s with pending := rest }) ∧
  (∀ s : State, s.pending = [] → step s = .refused .noCommand) ∧
  (∀ (s : State) (nbits w : Nat) (i : Instr), decodeTableWord nbits w = some i →
    step (s.withFetchWord nbits w) = exec i s)

/-! ### Reset and the invariant -/

/-- Every state element after INIT (10_state.md R20), for the reset state and for the INIT of an instance not yet created. -/
def Obligations.ResetValues : Prop :=
  State.reset.rd = 0 ∧ State.reset.ls = none ∧ State.reset.lsv = false ∧ State.reset.mode = .blanking ∧
  State.reset.fault = none ∧
  ∀ s : State, s.created = false →
    ∃ t, exec .init s = .next t ∧ t.created = true ∧ t.rd = 0 ∧ t.ls = none ∧ t.lsv = false ∧ t.mode = .blanking ∧
      t.fault = none ∧ t.pending = s.pending

/-- The reset state meets the invariant (10_state.md R13, R14, R16, R20). -/
def Obligations.ResetMeetsInvariant : Prop := State.reset.Inv ∧ State.uncreated.Inv

/-- Every step keeps the invariant: RD stays even and in -8..+8, blanking pins RD at 0, and in active a symbol has been emitted
(10_state.md R13, R14, R15, R16). -/
def Obligations.StepKeepsInvariant : Prop :=
  ∀ s t : State, s.Inv → step s = .next t → t.Inv

/-- The values RD can reach from reset, over every command stream, are exactly the even numbers in -8..+8 (10_state.md R13). -/
def Obligations.ReachableDisparitiesExact : Prop :=
  ∀ v : Int, legalDisparity v ↔
    ∃ (cmds : List Command) (k : Nat) (t : State),
      Host.Core.run core k { State.reset with pending := cmds } = .next t ∧ t.rd = v

/-- RD is always even (10_state.md R14): the reset value and ENC.CTL's value are 0, every ENC.DAT adds one of the four listed
amounts, all of them even, and so every step from an even RD leaves an even RD. -/
def Obligations.DisparityAlwaysEven : Prop :=
  State.reset.rd = 0 ∧
  (∀ (s : State) (c d : Nat), s.live = true → c ≤ 3 → d ≤ 255 → ∃ t, exec (.encCtl c d) s = .next t ∧ t.rd = 0) ∧
  (∀ (s : State) (c d : Nat), s.live = true → c ≤ 3 → d ≤ 255 →
    ∃ t, exec (.encDat d c) s = .next t ∧
      (t.rd - s.rd = imbalanceOf (minimize (BitVec.ofNat 8 d)) ∨
       t.rd - s.rd = -imbalanceOf (minimize (BitVec.ofNat 8 d)) ∨
       t.rd - s.rd = 2 * flagOf (minimize (BitVec.ofNat 8 d)) - imbalanceOf (minimize (BitVec.ofNat 8 d)) ∨
       t.rd - s.rd = imbalanceOf (minimize (BitVec.ofNat 8 d)) - 2 * (1 - flagOf (minimize (BitVec.ofNat 8 d))))) ∧
  (∀ x : Byte, byteImbalance x % 2 = 0) ∧
  (∀ q : Qm, flagOf q = 0 ∨ flagOf q = 1) ∧
  (∀ s t : State, s.rd % 2 = 0 → step s = .next t → t.rd % 2 = 0)

/-- MODE (10_state.md R16): blanking after a successful ENC.CTL and after INIT, active after a successful ENC.DAT, otherwise
unchanged; in blanking the disparity stays pinned at 0; and no command's result depends on MODE. -/
def Obligations.ModeTransitions : Prop :=
  (∀ (s t : State) (c d : Nat), exec (.encCtl c d) s = .next t → t.fault = none → t.mode = .blanking) ∧
  (∀ (s t : State) (c d : Nat), exec (.encDat d c) s = .next t → t.fault = none → t.mode = .active) ∧
  (∀ s t : State, exec .init s = .next t → t.mode = .blanking) ∧
  (∀ (s t : State) (i : Instr), exec i s = .next t → (observesOnly i = true ∨ t.fault ≠ none) → t.mode = s.mode) ∧
  (∀ s t : State, (s.mode = .blanking → s.rd = 0) → step s = .next t → t.mode = .blanking → t.rd = 0) ∧
  (∀ (s : State) (i : Instr) (m : Mode),
    match exec i s, exec i { s with mode := m } with
    | .next t, .next t' => t' = { t with mode := t'.mode }
    | .fault r, .fault r' => r = r'
    | .refused r, .refused r' => r = r'
    | _, _ => False)

/-- The only commands that bring RD to 0 whatever it was are ENC.CTL and INIT (70_reset_and_hazards.md R92). -/
def Obligations.OnlyControlAndInitResetDisparity : Prop :=
  ∀ i : Instr, i.wf = true →
    ((∀ s t : State, s.live = true → s.Inv → exec i s = .next t → t.rd = 0) ↔ (i = .init ∨ ∃ c d, i = .encCtl c d))

/-! ### ENC.CTL -/

/-- ENC.CTL (40_encode.md R50), on every live state and every operand: its encoding, the range faults, and otherwise the control
symbol emitted with RD reset to 0, everything else unchanged; a second one with the same operands changes nothing more. -/
def Obligations.ControlPathResult : Prop :=
  (∀ w : CmdWord, w.extractLsb' 10 4 = 0b0000#4 →
    decode w = .ok (.encCtl (w.extractLsb' 8 2).toNat (w.extractLsb' 0 8).toNat)) ∧
  (∀ (s : State) (c d : Nat), s.live = true →
    exec (.encCtl c d) s =
      if d > 255 then .next { s with fault := some (.dataRange d), out := none }
      else if c > 3 then .next { s with fault := some (.controlRange c), out := none }
      else .next { s with
        rd := 0
        ls := some (ctrlSym (BitVec.ofNat 2 c))
        mode := .blanking
        out := some (.symbol (ctrlSym (BitVec.ofNat 2 c))) }) ∧
  (ctrlSym 0 = 0x354#10 ∧ ctrlSym 1 = 0x0AB#10 ∧ ctrlSym 2 = 0x154#10 ∧ ctrlSym 3 = 0x2AB#10) ∧
  (∀ (s t : State) (c d : Nat), exec (.encCtl c d) s = .next t → t.fault = none → exec (.encCtl c d) t = .next t)

/-- The control symbols, bit by bit (10_state.md R18). -/
def Obligations.ControlSymbolsExact : Prop :=
  ctrlSym 0b00#2 = 0b1101010100#10 ∧ ctrlSym 0b01#2 = 0b0010101011#10 ∧
  ctrlSym 0b10#2 = 0b0101010100#10 ∧ ctrlSym 0b11#2 = 0b1010101011#10 ∧
  ctrlSym 0b00#2 = 0x354#10 ∧ ctrlSym 0b01#2 = 0x0AB#10 ∧ ctrlSym 0b10#2 = 0x154#10 ∧ ctrlSym 0b11#2 = 0x2AB#10

/-! ### ENC.DAT -/

/-- ENC.DAT (40_encode.md R51), on every live state and every operand: its encoding, the range faults, and otherwise the
pseudocode of the rule. The code `q` is any 9 bits that meet the stage 1 equations; the next state is the one stage 2 gives,
everything else unchanged. -/
def Obligations.DataPathResult : Prop :=
  (∀ w : CmdWord, w.extractLsb' 10 4 = 0b0001#4 →
    decode w = .ok (.encDat (w.extractLsb' 0 8).toNat (w.extractLsb' 8 2).toNat)) ∧
  (∀ (s : State) (c d : Nat), s.live = true → d > 255 →
    exec (.encDat d c) s = .next { s with fault := some (.dataRange d), out := none }) ∧
  (∀ (s : State) (c d : Nat), s.live = true → d ≤ 255 → c > 3 →
    exec (.encDat d c) s = .next { s with fault := some (.controlRange c), out := none }) ∧
  (∀ (s : State) (c d : Nat) (xnor : Bool) (q : Qm), s.live = true → d ≤ 255 → c ≤ 3 →
    (xnor = true ↔ popcount (BitVec.ofNat 8 d) > 4 ∨ (popcount (BitVec.ofNat 8 d) = 4 ∧ d.testBit 0 = false)) →
    q.getLsbD 0 = d.testBit 0 →
    (∀ k : Nat, 1 ≤ k → k ≤ 7 →
      q.getLsbD k = if xnor then !(Bool.xor (q.getLsbD (k - 1)) (d.testBit k)) else Bool.xor (q.getLsbD (k - 1)) (d.testBit k)) →
    q.getLsbD 8 = !xnor →
    ∀ (f b : Int) (y : Symbol) (v : Int),
      f = (if q.getLsbD 8 then 1 else 0) →
      b = 2 * (popcount (q.extractLsb' 0 8) : Int) - 8 →
      (y, v) =
        (if s.rd = 0 ∨ b = 0 then
          (if f = 1 then (q.zeroExtend 10, s.rd + b) else (q.zeroExtend 10 ^^^ 0x2FF#10, s.rd - b))
        else if (s.rd > 0 ∧ b > 0) ∨ (s.rd < 0 ∧ b < 0) then (q.zeroExtend 10 ^^^ 0x2FF#10, s.rd + 2 * f - b)
        else (q.zeroExtend 10, s.rd + b - 2 * (1 - f))) →
      exec (.encDat d c) s = .next { s with rd := v, ls := some y, mode := .active, out := some (.symbol y) })

/-- Chain selection (40_encode.md R52), and that 128 of the 256 data values select the XNOR chain. -/
def Obligations.ChainSelection : Prop :=
  (∀ d : Byte, (useXnor d = true ↔ popcount d > 4 ∨ (popcount d = 4 ∧ d.getLsbD 0 = false)) ∧
    (minimize d).getLsbD 8 = !useXnor d) ∧
  ((List.range 256).filter fun n => useXnor (BitVec.ofNat 8 n)).length = 128

/-- The chains (40_encode.md R53): the seed, the seven XOR or XNOR steps on the bit just produced, and the flag bit. -/
def Obligations.ChainBits : Prop :=
  ∀ d : Byte,
    (minimize d).getLsbD 0 = d.getLsbD 0 ∧
    (∀ k : Nat, 1 ≤ k → k ≤ 7 →
      (minimize d).getLsbD k =
        if useXnor d then !(Bool.xor ((minimize d).getLsbD (k - 1)) (d.getLsbD k))
        else Bool.xor ((minimize d).getLsbD (k - 1)) (d.getLsbD k)) ∧
    (minimize d).getLsbD 8 = if useXnor d then false else true

/-- The closed forms of stage 1 (40_encode.md R54) give the codes of the chains: prefix parities on the XOR chain, and those
XOR 0xAA on the XNOR chain. -/
def Obligations.ClosedFormsOfStageOne : Prop :=
  ∀ d : Byte,
    minimizeClosed d = minimize d ∧
    (∀ k : Nat, k ≤ 7 → (parityByte d).getLsbD k =
      ((List.range (k + 1)).map fun j => d.getLsbD j).foldl Bool.xor false) ∧
    chainByte false d = parityByte d ∧ chainByte true d = chainByte false d ^^^ 0xAA#8

/-- Arm A (40_encode.md R56): when RD = 0 or b = 0. -/
def Obligations.ArmARule : Prop :=
  ∀ (s : State) (c d : Nat) (q : Qm), s.live = true → d ≤ 255 → c ≤ 3 → q = minimize (BitVec.ofNat 8 d) →
    (s.rd = 0 ∨ imbalanceOf q = 0) →
    ∃ (y : Symbol) (t : State), exec (.encDat d c) s = .next t ∧ t.out = some (.symbol y) ∧ t.ls = some y ∧
      (q.getLsbD 8 = true → y = q.zeroExtend 10 ∧ t.rd = s.rd + imbalanceOf q) ∧
      (q.getLsbD 8 = false →
        y = q.zeroExtend 10 ^^^ 0x2FF#10 ∧ y.getLsbD 8 = false ∧ y.extractLsb' 0 8 = ~~~(q.extractLsb' 0 8) ∧
        t.rd = s.rd - imbalanceOf q) ∧
      y.getLsbD 9 = !q.getLsbD 8

/-- Arm B (40_encode.md R57): when RD and b are non-zero and share a sign. -/
def Obligations.ArmBRule : Prop :=
  ∀ (s : State) (c d : Nat) (q : Qm), s.live = true → d ≤ 255 → c ≤ 3 → q = minimize (BitVec.ofNat 8 d) →
    s.rd ≠ 0 → imbalanceOf q ≠ 0 →
    ((s.rd > 0 ∧ imbalanceOf q > 0) ∨ (s.rd < 0 ∧ imbalanceOf q < 0) ↔ (s.rd > 0 ↔ imbalanceOf q > 0)) ∧
    ((s.rd > 0 ↔ imbalanceOf q > 0) →
      ∃ (y : Symbol) (t : State), exec (.encDat d c) s = .next t ∧ t.out = some (.symbol y) ∧ t.ls = some y ∧
        y = q.zeroExtend 10 ^^^ 0x2FF#10 ∧ y.getLsbD 9 = true ∧ y.getLsbD 8 = q.getLsbD 8 ∧
        y.extractLsb' 0 8 = ~~~(q.extractLsb' 0 8) ∧ t.rd = s.rd + 2 * flagOf q - imbalanceOf q)

/-- Arm C (40_encode.md R58): when RD and b are non-zero and their signs differ. -/
def Obligations.ArmCRule : Prop :=
  ∀ (s : State) (c d : Nat) (q : Qm), s.live = true → d ≤ 255 → c ≤ 3 → q = minimize (BitVec.ofNat 8 d) →
    s.rd ≠ 0 → imbalanceOf q ≠ 0 → ¬(s.rd > 0 ↔ imbalanceOf q > 0) →
    ∃ (y : Symbol) (t : State), exec (.encDat d c) s = .next t ∧ t.out = some (.symbol y) ∧ t.ls = some y ∧
      y = q.zeroExtend 10 ∧ y.getLsbD 9 = false ∧ y.getLsbD 8 = q.getLsbD 8 ∧
      y.extractLsb' 0 8 = q.extractLsb' 0 8 ∧ t.rd = s.rd + imbalanceOf q - 2 * (1 - flagOf q)

/-- Order and exclusivity of the arms (40_encode.md R59): RD = 0 with any b and b = 0 with any RD take arm A, and bit 8 of the
symbol is the flag in every arm. -/
def Obligations.ArmOrder : Prop :=
  (∀ rd b : Int,
    (chooseArm rd b = .a ↔ rd = 0 ∨ b = 0) ∧
    (chooseArm rd b = .b ↔ ¬(rd = 0 ∨ b = 0) ∧ ((rd > 0 ∧ b > 0) ∨ (rd < 0 ∧ b < 0))) ∧
    (chooseArm rd b = .c ↔ ¬(rd = 0 ∨ b = 0) ∧ ¬((rd > 0 ∧ b > 0) ∨ (rd < 0 ∧ b < 0)))) ∧
  (∀ b : Int, chooseArm 0 b = .a) ∧ (∀ rd : Int, chooseArm rd 0 = .a) ∧
  (∀ (rd : Int) (d : Byte), (dataSymbol rd d).getLsbD 8 = (minimize d).getLsbD 8)

/-- The format of a data symbol (30_encoding.md R40): INV at bit 9, the chain flag at bit 8, the payload below, and bit 9 set
exactly when the symbol was formed by XOR with the mask 0x2FF. -/
def Obligations.DataSymbolFormat : Prop :=
  ∀ (rd : Int) (d : Byte),
    (dataSymbol rd d).getLsbD 8 = (minimize d).getLsbD 8 ∧
    (dataSymbol rd d).extractLsb' 0 8 =
      (if (dataSymbol rd d).getLsbD 9 then ~~~((minimize d).extractLsb' 0 8) else (minimize d).extractLsb' 0 8) ∧
    ((dataSymbol rd d).getLsbD 9 = true ↔ dataSymbol rd d = (minimize d).zeroExtend 10 ^^^ 0x2FF#10)

/-- The inversion mask (10_state.md R19): its value and bits, and what XOR with it does to a symbol. -/
def Obligations.InversionMask : Prop :=
  invMask = 0b1011111111#10 ∧
  (∀ y : Symbol,
    (y ^^^ invMask).getLsbD 9 = (!y.getLsbD 9) ∧ (y ^^^ invMask).getLsbD 8 = y.getLsbD 8 ∧
    (∀ k : Nat, k ≤ 7 → (y ^^^ invMask).getLsbD k = !y.getLsbD k)) ∧
  (∀ q : Qm, (q &&& 0x100#9 ≠ 0#9 ↔ q.getLsbD 8 = true) ∧ q &&& 0xFF#9 = (lowByte q).zeroExtend 9)

/-- The change of RD is the disparity of the emitted symbol, from every RD, and never more than 10 in magnitude (40_encode.md
R60). -/
def Obligations.DisparityChangeIsSymbolDisparity : Prop :=
  ∀ (s : State) (c d : Nat), s.live = true → d ≤ 255 → c ≤ 3 →
    ∃ (y : Symbol) (t : State), exec (.encDat d c) s = .next t ∧ t.out = some (.symbol y) ∧
      t.rd - s.rd = 2 * (onesBelow y 10 : Int) - 10 ∧ -10 ≤ t.rd - s.rd ∧ t.rd - s.rd ≤ 10

/-- RD is the sum of the disparities of the data symbols emitted since the later of INIT and the last ENC.CTL, along every run
(10_state.md R21). The sum is carried beside the run; it starts at the RD of the start state, which is 0 after INIT. -/
def Obligations.DisparityIsRunningSum : Prop :=
  (∀ (ops : List Instr) (acc : Int) (s t : State) (total : Int),
    acc = s.rd → runBalance ops acc s = some (total, t) → t.rd = total) ∧
  (∀ (ops : List Instr) (s t : State) (total : Int),
    s.created = false → runBalance (.init :: ops) 0 s = some (total, t) → t.rd = total)

/-- Self-balancing pairs (40_encode.md R61): from RD = 0 the pair `d`, `d ^ 1` ends at RD = 0 for the 64 multiples of 4 and for
every other `d`, but not from RD = +2. -/
def Obligations.SelfBalancingPair : Prop :=
  (∀ (s : State) (d : Nat), s.live = true → s.rd = 0 → d ≤ 255 →
    ∃ t u, exec (.encDat d 0) s = .next t ∧ exec (.encDat (d ^^^ 1) 0) t = .next u ∧ u.rd = 0) ∧
  (∀ s : State, s.live = true → s.rd = 2 →
    ∃ t u, exec (.encDat 0x04 0) s = .next t ∧ t.out = some (.symbol 0x303#10) ∧ t.rd = 0 ∧
      exec (.encDat 0x05 0) t = .next u ∧ u.out = some (.symbol 0x103#10) ∧ u.rd = -4)

/-- Unique decoding (40_encode.md R62): no data symbol comes from two data values, none is a control symbol, and there are
exactly 460 of them. -/
def Obligations.DataSymbolsDistinct : Prop :=
  (∀ (rd rd' : Int) (d d' : Byte), dataSymbol rd d = dataSymbol rd' d' → d = d') ∧
  (∀ (rd : Int) (d : Byte) (c : Ctrl), dataSymbol rd d ≠ ctrlSym c) ∧
  (∃ l : List Symbol, l.Nodup ∧ l.length = 460 ∧
    ∀ y : Symbol, y ∈ l ↔ ∃ (rd : Int) (d : Byte), legalDisparity rd ∧ y = dataSymbol rd d)

/-- The input each path ignores (40_encode.md R46). -/
def Obligations.IgnoredInputs : Prop :=
  (∀ (s : State) (c d d' : Nat), d ≤ 255 → d' ≤ 255 → exec (.encCtl c d) s = exec (.encCtl c d') s) ∧
  (∀ (s : State) (d c c' : Nat), c ≤ 3 → c' ≤ 3 → exec (.encDat d c) s = exec (.encDat d c') s)

/-- The input contract (40_encode.md R45): the data check first, then the control check, on both paths; a faulting ENC writes no
state and drives nothing; and no command word carries an input out of range. -/
def Obligations.InputContract : Prop :=
  (∀ (s : State) (c d : Nat), s.live = true → d > 255 →
    exec (.encCtl c d) s = .next { s with fault := some (.dataRange d), out := none } ∧
    exec (.encDat d c) s = .next { s with fault := some (.dataRange d), out := none }) ∧
  (∀ (s : State) (c d : Nat), s.live = true → d ≤ 255 → c > 3 →
    exec (.encCtl c d) s = .next { s with fault := some (.controlRange c), out := none } ∧
    exec (.encDat d c) s = .next { s with fault := some (.controlRange c), out := none }) ∧
  (∀ (w : CmdWord) (i : Instr), decode w = .ok i →
    (∀ d, dataInput i = some d → d ≤ 255) ∧ (∀ c, controlInput i = some c → c ≤ 3))

/-- An ENC reads no state but RD, and ENC.CTL not even RD (40_encode.md R47, R49): from two live instances that differ in LS,
LSV, MODE and out, the same ENC stream gives the same symbols and the same final RD. -/
def Obligations.EncodeReadsOnlyDisparity : Prop :=
  (∀ (ops : List Instr) (s s' t : State), s.live = true → s'.live = true → s.rd = s'.rd →
    (∀ i ∈ ops, i.wf = true ∧ ((∃ c d, i = .encCtl c d) ∨ ∃ d c, i = .encDat d c)) →
    runOps ops s = .next t →
    emittedSymbols ops s = emittedSymbols ops s' ∧ ∃ t', runOps ops s' = .next t' ∧ t'.rd = t.rd) ∧
  (∀ (s s' : State) (c d : Nat), s.live = true → s'.live = true → c ≤ 3 → d ≤ 255 →
    ∃ t t', exec (.encCtl c d) s = .next t ∧ exec (.encCtl c d) s' = .next t' ∧ t.out = t'.out ∧ t.rd = t'.rd ∧ t.ls = t'.ls)

/-! ### The helper units -/

/-- POPCNT (41_helpers.md R67), on every live state and every operand: its encoding, the range fault, the 4-bit count, and no
state written. -/
def Obligations.PopcntResult : Prop :=
  (∀ w : CmdWord, w.extractLsb' 8 6 = 0b001000#6 → decode w = .ok (.popcnt (w.extractLsb' 0 8).toNat)) ∧
  (∀ w : CmdWord, w.extractLsb' 11 3 = 0b001#3 → w.extractLsb' 8 3 ≠ 0#3 → ∃ e, decode w = .error e) ∧
  (∀ (s : State) (x : Nat), s.live = true → x > 255 →
    exec (.popcnt x) s = .next { s with fault := some (.helperRange x), out := none }) ∧
  (∀ (s : State) (x : Nat), s.live = true → x ≤ 255 →
    ∃ n : BitVec 4, exec (.popcnt x) s = .next { s with out := some (.count n) } ∧
      n.toNat = popcount (BitVec.ofNat 8 x) ∧ n.toNat ≤ 8)

/-- BYTEIMB (41_helpers.md R70), on every live state and every operand: its encoding, the range fault, the 5-bit signed
imbalance, and no state written. -/
def Obligations.ByteimbResult : Prop :=
  (∀ w : CmdWord, w.extractLsb' 8 6 = 0b010000#6 → decode w = .ok (.byteimb (w.extractLsb' 0 8).toNat)) ∧
  (∀ w : CmdWord, w.extractLsb' 11 3 = 0b010#3 → w.extractLsb' 8 3 ≠ 0#3 → ∃ e, decode w = .error e) ∧
  (∀ (s : State) (x : Nat), s.live = true → x > 255 →
    exec (.byteimb x) s = .next { s with fault := some (.helperRange x), out := none }) ∧
  (∀ (s : State) (x : Nat), s.live = true → x ≤ 255 →
    ∃ b : BitVec 5, exec (.byteimb x) s = .next { s with out := some (.imbalance b) } ∧
      b.toInt = 2 * (popcount (BitVec.ofNat 8 x) : Int) - 8 ∧ -8 ≤ b.toInt ∧ b.toInt ≤ 8)

/-- popcount (41_helpers.md R65, R66): the sum of the eight bits, and its laws. -/
def Obligations.PopcountLaws : Prop :=
  (∀ x : Byte, popcount x = ((List.range 8).map fun k => (x.getLsbD k).toNat).sum ∧ popcount x ≤ 8) ∧
  popcount 0x00#8 = 0 ∧ popcount 0xFF#8 = 8 ∧
  (∀ x : Byte, (popcount (~~~x) : Int) = 8 - popcount x) ∧
  (∀ x : Byte, (popcount (x ^^^ 1#8) : Int) = popcount x + (if x.getLsbD 0 then -1 else 1))

/-- byteImbalance (41_helpers.md R68, R69, R71): its formula as ones minus zeros, and its laws. -/
def Obligations.ImbalanceLaws : Prop :=
  (∀ x : Byte, byteImbalance x = 2 * (popcount x : Int) - 8 ∧ byteImbalance x = (popcount x : Int) - (popcount (~~~x) : Int)) ∧
  (∀ x : Byte, byteImbalance x % 2 = 0 ∧ -8 ≤ byteImbalance x ∧ byteImbalance x ≤ 8) ∧
  (∀ v : Int, legalDisparity v → ∃ x : Byte, byteImbalance x = v) ∧
  (∀ x : Byte, byteImbalance (~~~x) = -byteImbalance x) ∧
  (∀ x : Byte, byteImbalance x = 0 ↔ popcount x = 4) ∧
  ((List.range 256).filter fun n => popcount (BitVec.ofNat 8 n) = 4).length = 70 ∧
  ((List.range 256).filter fun n => imbalanceOf (minimize (BitVec.ofNat 8 n)) = 0).length = 52

/-! ### Lifecycle and diagnostics -/

/-- INIT (42_lifecycle_diag.md R73): its encoding, its effect on a live instance and on one not yet created, that it is
idempotent, and that it cannot clear a fault. -/
def Obligations.InitResult : Prop :=
  decode 0x2800#14 = .ok .init ∧
  (∀ w : CmdWord, w.extractLsb' 11 3 = 0b101#3 → w.extractLsb' 0 11 ≠ 0#11 → ∃ e, decode w = .error e) ∧
  (∀ s : State, s.live = true →
    exec .init s = .next { s with rd := 0, ls := none, mode := .blanking, out := none }) ∧
  (∀ s : State, s.created = false →
    exec .init s = .next { State.reset with pending := s.pending }) ∧
  (∀ s t : State, exec .init s = .next t → exec .init t = .next t) ∧
  (∀ (s : State) (r : FaultRecord), s.created = true → s.fault = some r → exec .init s = .fault (.stopped r))

/-- RDDISP (42_lifecycle_diag.md R74): it drives RD, writes nothing, and reads what an ENC or INIT before it wrote. -/
def Obligations.RddispResult : Prop :=
  decode 0x1800#14 = .ok .rddisp ∧
  (∀ w : CmdWord, w.extractLsb' 11 3 = 0b011#3 → w.extractLsb' 0 11 ≠ 0#11 → ∃ e, decode w = .error e) ∧
  (∀ s : State, s.live = true → exec .rddisp s = .next { s with out := some (.disparity s.rd) }) ∧
  (∀ (s t : State) (i : Instr), exec i s = .next t → t.fault = none →
    ∃ u, exec .rddisp t = .next u ∧ u.out = some (.disparity t.rd) ∧
      ((i = .init ∨ ∃ c d, i = .encCtl c d) → u.out = some (.disparity 0)))

/-- RDLAST (42_lifecycle_diag.md R75): it drives LS, or raises NO_VALUE while LSV = 0; after any ENC it drives that ENC's
symbol, and a faulting ENC does not change LS. -/
def Obligations.RdlastResult : Prop :=
  decode 0x2000#14 = .ok .rdlast ∧
  (∀ w : CmdWord, w.extractLsb' 11 3 = 0b100#3 → w.extractLsb' 0 11 ≠ 0#11 → ∃ e, decode w = .error e) ∧
  (∀ s : State, s.live = true → s.lsv = false →
    exec .rdlast s = .next { s with fault := some .noValue, out := none }) ∧
  (∀ (s : State) (y : Symbol), s.live = true → s.ls = some y →
    exec .rdlast s = .next { s with out := some (.symbol y) }) ∧
  (∀ (s t : State) (i : Instr) (y : Symbol), exec i s = .next t → emittedSymbol i t = some y →
    exec .rdlast t = .next { t with out := some (.symbol y) }) ∧
  (∀ (s t : State) (i : Instr), exec i s = .next t → t.fault ≠ none → t.ls = s.ls)

/-- The helpers and the diagnostic reads write no encoder state and are idempotent; INIT is idempotent; ENC.DAT is not
(20_memory.md R27, 41_helpers.md R63, 42_lifecycle_diag.md R76). -/
def Obligations.ReadsAndHelpersAreIdempotent : Prop :=
  (∀ (s t : State) (i : Instr), observesOnly i = true → exec i s = .next t →
    t.created = s.created ∧ t.rd = s.rd ∧ t.ls = s.ls ∧ t.mode = s.mode ∧ t.pending = s.pending ∧
    (t.fault = none → exec i t = .next t)) ∧
  (∀ s t : State, exec .init s = .next t → exec .init t = .next t) ∧
  (∀ s : State, s.live = true → s.rd = 0 →
    ∃ t u, exec (.encDat 0 0) s = .next t ∧ exec (.encDat 0 0) t = .next u ∧
      t.out = some (.symbol 0x100#10) ∧ u.out = some (.symbol 0x3FF#10))

/-- Inserting diagnostic reads and helper commands anywhere in a stream leaves every ENC result and the final RD, LS, LSV and
MODE unchanged, where no command faults (42_lifecycle_diag.md R76, 70_reset_and_hazards.md R96). -/
def Obligations.InsertedReadsChangeNothing : Prop :=
  ∀ (ops : List Instr) (s t : State), runOps ops s = .next t → t.fault = none →
    emittedSymbols (ops.filter fun i => !observesOnly i) s = emittedSymbols ops s ∧
    ∃ t', runOps (ops.filter fun i => !observesOnly i) s = .next t' ∧
      t'.created = t.created ∧ t'.rd = t.rd ∧ t'.ls = t.ls ∧ t'.lsv = t.lsv ∧ t'.mode = t.mode ∧ t'.fault = none ∧
      t'.pending = t.pending

/-- Before INIT an instance takes no command but INIT (70_reset_and_hazards.md R91). -/
def Obligations.CommandBeforeInitRefused : Prop :=
  (∀ (s : State) (i : Instr), s.created = false → i ≠ .init → exec i s = .refused .beforeInit) ∧
  (∀ (s : State) (w : CmdWord), s.created = false → execReserved w s = .refused .beforeInit) ∧
  (∀ s : State, s.created = false → ∃ t, exec .init s = .next t ∧ t.live = true)

/-- A single level (60_exceptions.md R86): in either mode, every command in range completes without a fault, but for RDLAST
before the first symbol. -/
def Obligations.EveryCommandAtAnyTime : Prop :=
  ∀ (s : State) (i : Instr), s.live = true → i.wf = true → (i = .rdlast → s.lsv = true) →
    ∃ t, exec i s = .next t ∧ t.live = true ∧ t.pending = s.pending

/-- What each command drives on `out` (30_encoding.md R38), from every state of the invariant; a faulting command drives
nothing. -/
def Obligations.ResultOutputs : Prop :=
  ∀ (s t : State) (i : Instr), s.Inv → exec i s = .next t →
    (t.fault ≠ none → t.out = none) ∧
    (t.fault = none →
      match i with
      | .encCtl c _ => t.out = some (.symbol (ctrlSym (BitVec.ofNat 2 c)))
      | .encDat d _ => t.out = some (.symbol (dataSymbol s.rd (BitVec.ofNat 8 d)))
      | .popcnt x => ∃ n : BitVec 4, t.out = some (.count n) ∧ n.toNat = popcount (BitVec.ofNat 8 x) ∧ n.toNat ≤ 8
      | .byteimb x => ∃ b : BitVec 5, t.out = some (.imbalance b) ∧ b.toInt = byteImbalance (BitVec.ofNat 8 x) ∧
          -8 ≤ b.toInt ∧ b.toInt ≤ 8
      | .rddisp => t.out = some (.disparity s.rd) ∧ -8 ≤ s.rd ∧ s.rd ≤ 8
      | .rdlast => ∃ y, s.ls = some y ∧ t.out = some (.symbol y)
      | .init => t.out = none)

/-! ### Faults -/

/-- Fault codes (60_exceptions.md R81): their numbers, which command raises which with what info, and that codes 1 to 3 cannot
arise from a command word. -/
def Obligations.FaultCodes : Prop :=
  (∀ v, (FaultRecord.dataRange v).code = 1) ∧ (∀ v, (FaultRecord.controlRange v).code = 2) ∧
  (∀ v, (FaultRecord.helperRange v).code = 3) ∧ (∀ w, (FaultRecord.reservedCommand w).code = 4) ∧
  FaultRecord.noValue.code = 5 ∧
  (∀ (s t : State) (w : CmdWord), execReserved w s = .next t → t.fault = some (.reservedCommand w)) ∧
  (∀ (s t : State) (w : CmdWord) (i : Instr) (r : FaultRecord),
    decode w = .ok i → exec i s = .next t → t.fault = some r → r.code ≥ 4) ∧
  ∀ (s t : State) (i : Instr) (r : FaultRecord), exec i s = .next t → t.fault = some r →
    match r with
    | .dataRange v => dataInput i = some v ∧ v > 255
    | .controlRange v => controlInput i = some v ∧ v > 3
    | .helperRange v => helperInput i = some v ∧ v > 255
    | .reservedCommand _ => False
    | .noValue => i = .rdlast ∧ s.lsv = false

/-- Fault priority (60_exceptions.md R82), and that nothing else faults (R78): a reserved word faults before any operand is read;
an operation takes the first fault of the rules' list, and completes when the list is empty; no command can raise both
HELPER_RANGE and an ENC fault. -/
def Obligations.FaultPriority : Prop :=
  (∀ (s : State) (w : CmdWord) (rest : List Command), s.live = true → s.pending = .word w :: rest → reservedWord w →
    step s = .next { s with pending := rest, fault := some (.reservedCommand w), out := none }) ∧
  (∀ (s : State) (i : Instr) (r : FaultRecord) (others : List FaultRecord), s.live = true →
    operationFaults i s = r :: others → exec i s = .next { s with fault := some r, out := none }) ∧
  (∀ (s : State) (i : Instr), s.live = true → operationFaults i s = [] →
    ∃ t, exec i s = .next t ∧ t.fault = none) ∧
  (∀ i : Instr, ¬((helperInput i).isSome = true ∧ ((dataInput i).isSome = true ∨ (controlInput i).isSome = true)))

/-- The effect of a fault (60_exceptions.md R83): no state written, no result driven, FAULT recorded; then the instance takes no
command, INIT included, its state stands, and no other instance is affected. `stepOrStay` is the turn of one instance of several,
which stays as it is when it takes no command (log entry 9). -/
def Obligations.FaultStopsInstance : Prop :=
  (∀ (s t : State) (i : Instr) (r : FaultRecord), exec i s = .next t → t.fault = some r →
    t = { s with fault := some r, out := none } ∧ s.fault = none) ∧
  (∀ (s : State) (r : FaultRecord), s.created = true → s.fault = some r →
    (∀ i : Instr, exec i s = .fault (.stopped r)) ∧ (∀ w : CmdWord, execReserved w s = .fault (.stopped r)) ∧
    (∀ t, step s ≠ .next t) ∧ stepOrStay s = s) ∧
  (∀ (n : Nat) (sys : Platform n) (k j : Fin n), j ≠ k → (stepAt sys k)[j] = sys[j])

/-- Faults are precise (60_exceptions.md R79): the commands before the faulting one have completed, it has no effect but the
record, and no later command takes effect. -/
def Obligations.FaultsArePrecise : Prop :=
  ∀ (before after : List Instr) (i : Instr) (s u t : State) (r : FaultRecord),
    runOps before s = .next u → exec i u = .next t → t.fault = some r →
    t.created = u.created ∧ t.rd = u.rd ∧ t.ls = u.ls ∧ t.lsv = u.lsv ∧ t.mode = u.mode ∧ t.out = none ∧
    (after = [] → runOps (before ++ i :: after) s = .next t) ∧
    (after ≠ [] → runOps (before ++ i :: after) s = .fault (.stopped r))

/-! ### Order, instances and equivalent circuits -/

/-- A command neither reads nor writes the caller's stream (20_memory.md R28, 92_eei_decisions.md D2). -/
def Obligations.CommandsIgnoreTheStream : Prop :=
  ∀ (i : Instr) (s : State) (p : List Command),
    exec i { s with pending := p } =
      match exec i s with
      | .next t => .next { t with pending := p }
      | .fault r => .fault r
      | .refused r => .refused r

/-- Commands of a stream take effect one at a time in issue order (20_memory.md R28, 70_reset_and_hazards.md R93): the steps of
the machine on a stream are the operations executed in that order. -/
def Obligations.StreamRunsInIssueOrder : Prop :=
  ∀ (ops : List Instr) (s : State), s.pending = [] →
    Host.Core.run core ops.length { s with pending := ops.map Command.op } = runOps ops s

/-- Instances are independent (20_memory.md R29): under any interleaving each instance ends as it does alone, after as many turns
as it had. That an instance which takes no command in its turn stays as it is, alone and interleaved alike (`stepOrStay`), is the
model's choice (log entry 9). -/
def Obligations.InstancesIndependent : Prop :=
  ∀ (n : Nat) (sys : Platform n) (turns : List (Fin n)) (k : Fin n),
    (interleave sys turns)[k] = runAlone (turns.count k) sys[k]

/-- The 5-bit two's complement RD register (10_state.md R13, 92_eei_decisions.md D4): on every reachable RD it holds the value,
and the 5-bit circuit emits the same symbol and the same next RD as the exact integers. -/
def Obligations.FiveBitRegisterAgrees : Prop :=
  ∀ (rd : Int) (d : Byte), legalDisparity rd →
    (BitVec.ofInt 5 rd).toInt = rd ∧
    symbolRegister (BitVec.ofInt 5 rd) (minimize d) = dataSymbol rd d ∧
    (disparityRegister (BitVec.ofInt 5 rd) (minimize d)).toInt = dataDisparity rd d

/-- A table of pairs `d`, `d ^ 1`, replayed whole from RD = 0, ends at RD = 0 (70_reset_and_hazards.md R95). -/
def Obligations.PairTableStaysBalanced : Prop :=
  ∀ (ds : List Byte) (s : State), s.live = true → s.rd = 0 →
    ∃ t, runOps (pairStream ds) s = .next t ∧ t.live = true ∧ t.rd = 0 ∧ t.pending = s.pending
end

