-- ==== Sys2Proof/Laws/Decode.lean ====
section
/-! SUPPORT. The operand ranges; the fields of a packed word and the packing of a word's fields (30_encoding.md R34); what `decode` answers, by the fields (R35, R39); and when a row of the opcode map hits (R37). -/

namespace Sys2Proof

@[simp] theorem wf_encCtl (c d : Nat) : (Instr.encCtl c d).wf = true ↔ d ≤ 255 ∧ c ≤ 3 := by
  rw [Instr.wf, Bool.and_eq_true, decide_eq_true_eq, decide_eq_true_eq]
  rfl

@[simp] theorem wf_encDat (d c : Nat) : (Instr.encDat d c).wf = true ↔ d ≤ 255 ∧ c ≤ 3 := by
  rw [Instr.wf, Bool.and_eq_true, decide_eq_true_eq, decide_eq_true_eq]
  rfl

@[simp] theorem wf_popcnt (x : Nat) : (Instr.popcnt x).wf = true ↔ x ≤ 255 := by
  rw [Instr.wf, decide_eq_true_eq]
  rfl

@[simp] theorem wf_byteimb (x : Nat) : (Instr.byteimb x).wf = true ↔ x ≤ 255 := by
  rw [Instr.wf, decide_eq_true_eq]
  rfl

variable (op : BitVec 3) (de : BitVec 1) (c : Ctrl) (x : Byte) (w : CmdWord)

/-- Bit `i` of a packed word comes from the field that covers it. -/
theorem packWord_getLsbD (i : Nat) :
    (packWord op de c x).getLsbD i =
      (if i < 8 then x.getLsbD i else if i < 10 then c.getLsbD (i - 8) else if i < 11 then de.getLsbD (i - 10)
        else op.getLsbD (i - 11)) := by
  simp only [packWord, BitVec.getLsbD_or, BitVec.getLsbD_shiftLeft, BitVec.getLsbD_setWidth]
  by_cases h8 : i < 8
  · simp [h8, show i < 14 by omega, show i < 10 by omega, show i < 11 by omega]
  have hx : x.getLsbD i = false := BitVec.getLsbD_of_ge x i (by omega)
  by_cases h10 : i < 10
  · simp [h8, hx, h10, show i < 14 by omega, show i < 11 by omega, show i - 8 < 14 by omega]
  have hc : c.getLsbD (i - 8) = false := BitVec.getLsbD_of_ge c _ (by omega)
  by_cases h11 : i < 11
  · simp [h8, hx, h10, hc, h11, show i < 14 by omega, show i - 10 < 14 by omega]
  have hd : de.getLsbD (i - 10) = false := BitVec.getLsbD_of_ge de _ (by omega)
  by_cases h14 : i < 14
  · simp [h8, hx, h10, hc, h11, hd, h14, show i - 11 < 14 by omega]
  · have ho : op.getLsbD (i - 11) = false := BitVec.getLsbD_of_ge op _ (by omega)
    simp [h8, hx, h10, hc, h11, hd, ho]

@[simp] theorem opField_pack : opField (packWord op de c x) = op := by
  apply BitVec.eq_of_getLsbD_eq
  intro i hi
  rw [opField, BitVec.getLsbD_extractLsb', packWord_getLsbD]
  simp [hi, show ¬(11 + i < 8) by omega, show ¬(11 + i < 10) by omega]

@[simp] theorem deField_pack : deField (packWord op de c x) = de := by
  apply BitVec.eq_of_getLsbD_eq
  intro i hi
  rw [deField, BitVec.getLsbD_extractLsb', packWord_getLsbD]
  simp only [hi, show ¬(10 + i < 8) by omega, show ¬(10 + i < 10) by omega, show 10 + i < 11 by omega,
    Nat.add_sub_cancel_left, decide_true, Bool.true_and, if_true, if_false]

@[simp] theorem cField_pack : cField (packWord op de c x) = c := by
  apply BitVec.eq_of_getLsbD_eq
  intro i hi
  rw [cField, BitVec.getLsbD_extractLsb', packWord_getLsbD]
  simp only [hi, show ¬(8 + i < 8) by omega, show 8 + i < 10 by omega, Nat.add_sub_cancel_left, decide_true,
    Bool.true_and, if_true, if_false]

@[simp] theorem xField_pack : xField (packWord op de c x) = x := by
  apply BitVec.eq_of_getLsbD_eq
  intro i hi
  rw [xField, BitVec.getLsbD_extractLsb', packWord_getLsbD]
  simp only [Nat.zero_add, hi, decide_true, Bool.true_and, if_true]

/-- Bits 10:8 of a packed word are clear when `DE` and `C` are. -/
@[simp] theorem midField_pack : midField (packWord op 0#1 0#2 x) = 0#3 := by
  apply BitVec.eq_of_getLsbD_eq
  intro i hi
  rw [midField, BitVec.getLsbD_extractLsb', packWord_getLsbD]
  by_cases h : 8 + i < 10 <;> simp [h, show 8 + i < 11 by omega]

/-- Bits 10:0 of a packed word are clear when `DE`, `C` and `X` are. -/
@[simp] theorem lowField_pack : lowField (packWord op 0#1 0#2 0#8) = 0#11 := by
  apply BitVec.eq_of_getLsbD_eq
  intro i hi
  rw [lowField, BitVec.getLsbD_extractLsb', packWord_getLsbD]
  by_cases h8 : i < 8 <;> by_cases h10 : i < 10 <;> simp [h8, h10, hi]

/-- A word is its four fields. -/
theorem packWord_fields : packWord (opField w) (deField w) (cField w) (xField w) = w := by
  apply BitVec.eq_of_getLsbD_eq
  intro i hi
  rw [packWord_getLsbD]
  simp only [opField, deField, cField, xField, BitVec.getLsbD_extractLsb']
  split
  · simp [*]
  split
  · rw [show 8 + (i - 8) = i by omega]; simp [show i - 8 < 2 by omega]
  split
  · rw [show 10 + (i - 10) = i by omega]; simp [show i - 10 < 1 by omega]
  · rw [show 11 + (i - 11) = i by omega]; simp [show i - 11 < 3 by omega]

/-- The reserved-zero bits 10:8 are the fields `DE` and `C`. -/
theorem midField_zero : midField w = 0#3 ↔ deField w = 0#1 ∧ cField w = 0#2 := by
  constructor
  · intro h
    have hb : ∀ i, i < 3 → w.getLsbD (8 + i) = false := fun i hi => by
      have := congrArg (fun v : BitVec 3 => v.getLsbD i) h
      simpa [midField, BitVec.getLsbD_extractLsb', hi] using this
    constructor <;> apply BitVec.eq_of_getLsbD_eq <;> intro i hi
    · have := hb (2 + i) (by omega)
      rw [deField, BitVec.getLsbD_extractLsb', show 10 + i = 8 + (2 + i) by omega, this]; simp
    · have := hb i (by omega)
      rw [cField, BitVec.getLsbD_extractLsb', this]; simp
  · rintro ⟨hd, hc⟩
    rw [← packWord_fields w, hd, hc]
    exact midField_pack _ _

/-- The reserved-zero bits 10:0 are the fields `DE`, `C` and `X`. -/
theorem lowField_zero : lowField w = 0#11 ↔ deField w = 0#1 ∧ cField w = 0#2 ∧ xField w = 0#8 := by
  constructor
  · intro h
    have hb : ∀ i, i < 11 → w.getLsbD i = false := fun i hi => by
      have := congrArg (fun v : BitVec 11 => v.getLsbD i) h
      simpa [lowField, BitVec.getLsbD_extractLsb', hi] using this
    refine ⟨?_, ?_, ?_⟩ <;> apply BitVec.eq_of_getLsbD_eq <;> intro i hi
    · rw [deField, BitVec.getLsbD_extractLsb', hb _ (by omega)]; simp
    · rw [cField, BitVec.getLsbD_extractLsb', hb _ (by omega)]; simp
    · rw [xField, BitVec.getLsbD_extractLsb', hb _ (by omega)]; simp
  · rintro ⟨hd, hc, hx⟩
    rw [← packWord_fields w, hd, hc, hx]
    exact lowField_pack _

/-- A packed word has one set of fields. -/
theorem packWord_inj {op op' : BitVec 3} {de de' : BitVec 1} {c c' : Ctrl} {x x' : Byte} :
    packWord op de c x = packWord op' de' c' x' ↔ op = op' ∧ de = de' ∧ c = c' ∧ x = x' := by
  constructor
  · intro h
    exact ⟨by simpa using congrArg opField h, by simpa using congrArg deField h, by simpa using congrArg cField h,
      by simpa using congrArg xField h⟩
  · rintro ⟨rfl, rfl, rfl, rfl⟩
    rfl

/-- The mask 0x3C00 keeps `OP` and `DE` (R37). -/
theorem packWord_and_encMask : packWord op de c x &&& 0x3C00#14 = packWord op de 0#2 0#8 := by
  apply BitVec.eq_of_getLsbD_eq
  intro i hi
  have hm : ∀ i < 14, (0x3C00#14).getLsbD i = decide (10 ≤ i) := by decide
  rw [BitVec.getLsbD_and, packWord_getLsbD, packWord_getLsbD, hm i hi]
  by_cases h : i < 10
  · simp [h, show ¬10 ≤ i by omega]
  · simp [h, show 10 ≤ i by omega, show ¬i < 8 by omega]

/-- The mask 0x3F00 keeps `OP`, `DE` and `C` (R37). -/
theorem packWord_and_helperMask : packWord op de c x &&& 0x3F00#14 = packWord op de c 0#8 := by
  apply BitVec.eq_of_getLsbD_eq
  intro i hi
  have hm : ∀ i < 14, (0x3F00#14).getLsbD i = decide (8 ≤ i) := by decide
  rw [BitVec.getLsbD_and, packWord_getLsbD, packWord_getLsbD, hm i hi]
  by_cases h : i < 8
  · simp [h, show ¬8 ≤ i by omega]
  · simp [h, show 8 ≤ i by omega]

/-- What `decode` answers, by the fields of the word (R35, R36, R39). -/
theorem decode_cases :
    (opField w = 0#3 ∧ deField w = 0#1 ∧ decode w = .ok (.encCtl (cField w).toNat (xField w).toNat)) ∨
    (opField w = 0#3 ∧ deField w = 1#1 ∧ decode w = .ok (.encDat (xField w).toNat (cField w).toNat)) ∨
    (opField w = 1#3 ∧ midField w = 0#3 ∧ decode w = .ok (.popcnt (xField w).toNat)) ∨
    (opField w = 2#3 ∧ midField w = 0#3 ∧ decode w = .ok (.byteimb (xField w).toNat)) ∨
    (opField w = 3#3 ∧ lowField w = 0#11 ∧ decode w = .ok .rddisp) ∨
    (opField w = 4#3 ∧ lowField w = 0#11 ∧ decode w = .ok .rdlast) ∨
    (opField w = 5#3 ∧ lowField w = 0#11 ∧ decode w = .ok .init) ∨
    ((opField w = 1#3 ∨ opField w = 2#3) ∧ midField w ≠ 0#3 ∧ decode w = .error .reservedBits) ∨
    ((opField w = 3#3 ∨ opField w = 4#3 ∨ opField w = 5#3) ∧ lowField w ≠ 0#11 ∧ decode w = .error .reservedBits) ∨
    ((opField w = 6#3 ∨ opField w = 7#3) ∧ decode w = .error .reservedOp) := by
  have hop : opField w = 0#3 ∨ opField w = 1#3 ∨ opField w = 2#3 ∨ opField w = 3#3 ∨ opField w = 4#3 ∨
      opField w = 5#3 ∨ opField w = 6#3 ∨ opField w = 7#3 := by
    generalize opField w = v
    revert v
    decide
  have hd : deField w = 0#1 ∨ deField w = 1#1 := by
    generalize deField w = v
    revert v
    decide
  by_cases hm : midField w = 0#3 <;> by_cases hl : lowField w = 0#11 <;>
    rcases hop with h | h | h | h | h | h | h | h <;> rcases hd with h' | h' <;> simp [decode, ifZero, h, h', hm, hl]

/-- When a row of the opcode map hits, by the fields of the word (R36, R37). -/
theorem opcodeMap_hits :
    (OpRow.hits { mnemonic := "ENC.CTL", pattern := 0x0000#14, mask := 0x3C00#14 } w = true ↔
      opField w = 0#3 ∧ deField w = 0#1) ∧
    (OpRow.hits { mnemonic := "ENC.DAT", pattern := 0x0400#14, mask := 0x3C00#14 } w = true ↔
      opField w = 0#3 ∧ deField w = 1#1) ∧
    (OpRow.hits { mnemonic := "POPCNT", pattern := 0x0800#14, mask := 0x3F00#14 } w = true ↔
      opField w = 1#3 ∧ midField w = 0#3) ∧
    (OpRow.hits { mnemonic := "BYTEIMB", pattern := 0x1000#14, mask := 0x3F00#14 } w = true ↔
      opField w = 2#3 ∧ midField w = 0#3) ∧
    (OpRow.hits { mnemonic := "RDDISP", pattern := 0x1800#14, mask := 0x3FFF#14 } w = true ↔
      opField w = 3#3 ∧ lowField w = 0#11) ∧
    (OpRow.hits { mnemonic := "RDLAST", pattern := 0x2000#14, mask := 0x3FFF#14 } w = true ↔
      opField w = 4#3 ∧ lowField w = 0#11) ∧
    (OpRow.hits { mnemonic := "INIT", pattern := 0x2800#14, mask := 0x3FFF#14 } w = true ↔
      opField w = 5#3 ∧ lowField w = 0#11) := by
  simp only [midField_zero, lowField_zero]
  obtain ⟨op, de, c, x, rfl⟩ : ∃ op de c x, w = packWord op de c x := ⟨_, _, _, _, (packWord_fields w).symm⟩
  simp only [OpRow.hits, beq_iff_eq, packWord_and_encMask, packWord_and_helperMask, opField_pack, deField_pack, cField_pack,
    xField_pack, show 0x3FFF#14 = BitVec.allOnes 14 by decide, BitVec.and_allOnes,
    show 0x0000#14 = packWord 0 0 0 0 by decide, show 0x0400#14 = packWord 0 1 0 0 by decide,
    show 0x0800#14 = packWord 1 0 0 0 by decide, show 0x1000#14 = packWord 2 0 0 0 by decide,
    show 0x1800#14 = packWord 3 0 0 0 by decide, show 0x2000#14 = packWord 4 0 0 0 by decide,
    show 0x2800#14 = packWord 5 0 0 0 by decide, packWord_inj]
  simp

end Sys2Proof
end

