-- ==== Sys2Proof/Laws/Flags.lean ====
section
/-! SUPPORT. The bit counts: bounds, complement, parity (41_helpers.md R66, R71), and the arm's cases (40_encode.md R59). -/

namespace Sys2Proof.Machine

/-- At most `n` of `n` bits are set. -/
theorem onesBelow_le {w : Nat} (x : BitVec w) (n : Nat) : onesBelow x n ≤ n := by
  induction n with
  | zero => simp [onesBelow]
  | succ n ih =>
    have := Bool.toNat_le (x.getLsbD n)
    simp only [onesBelow]
    omega

/-- The count of the low `n` bits depends on those bits only. -/
theorem onesBelow_congr {w v : Nat} {x : BitVec w} {y : BitVec v} {n : Nat}
    (h : ∀ k < n, x.getLsbD k = y.getLsbD k) : onesBelow x n = onesBelow y n := by
  induction n with
  | zero => rfl
  | succ n ih => simp only [onesBelow, ih fun k hk => h k (by omega), h n (by omega)]

/-- Complementing the low `n` bits exchanges ones and zeros. -/
theorem onesBelow_flip {w v : Nat} {x : BitVec w} {y : BitVec v} {n : Nat}
    (h : ∀ k < n, x.getLsbD k = !y.getLsbD k) : onesBelow x n + onesBelow y n = n := by
  induction n with
  | zero => rfl
  | succ n ih =>
    have := ih fun k hk => h k (by omega)
    have hn : (x.getLsbD n).toNat + (y.getLsbD n).toNat = 1 := by
      rw [h n (by omega)]
      cases y.getLsbD n <;> rfl
    simp only [onesBelow]
    omega

theorem popcount_le (x : Byte) : popcount x ≤ 8 := onesBelow_le x 8

/-- byteImbalance is even and in -8..+8 (41_helpers.md R71). -/
theorem byteImbalance_range (x : Byte) : byteImbalance x % 2 = 0 ∧ -8 ≤ byteImbalance x ∧ byteImbalance x ≤ 8 := by
  have := popcount_le x
  simp only [byteImbalance]
  omega

theorem imbalanceOf_range (q : Qm) : imbalanceOf q % 2 = 0 ∧ -8 ≤ imbalanceOf q ∧ imbalanceOf q ≤ 8 :=
  byteImbalance_range _

theorem flagOf_cases (q : Qm) : flagOf q = 0 ∧ q.getLsbD 8 = false ∨ flagOf q = 1 ∧ q.getLsbD 8 = true := by
  unfold flagOf
  cases q.getLsbD 8 <;> simp

/-- The arm chosen, with its condition (40_encode.md R56 to R59). -/
theorem chooseArm_cases (rd b : Int) :
    chooseArm rd b = .a ∧ (rd = 0 ∨ b = 0) ∨
    chooseArm rd b = .b ∧ ¬(rd = 0 ∨ b = 0) ∧ (rd > 0 ∧ b > 0 ∨ rd < 0 ∧ b < 0) ∨
    chooseArm rd b = .c ∧ ¬(rd = 0 ∨ b = 0) ∧ ¬(rd > 0 ∧ b > 0 ∨ rd < 0 ∧ b < 0) := by
  unfold chooseArm
  split
  · exact .inl ⟨rfl, ‹_›⟩
  · split
    · exact .inr (.inl ⟨rfl, ‹_›, ‹_›⟩)
    · exact .inr (.inr ⟨rfl, ‹_›, ‹_›⟩)

end Sys2Proof.Machine
end

