-- ==== Sys2Proof/Laws/Encode.lean ====
section
/-! SUPPORT. Stage 2 arm by arm (40_encode.md R56 to R58), and the ones of the two symbols a code can become. -/

namespace Sys2Proof.Machine

/-- Bit `k` of `q_m` unmodified. -/
theorem plainSymbol_getLsbD (q : Qm) (k : Nat) : (plainSymbol q).getLsbD k = q.getLsbD k := by
  simp only [plainSymbol, BitVec.getLsbD_setWidth]
  by_cases h : k < 10
  · simp [h]
  · simp [h, BitVec.getLsbD_of_ge q k (by omega)]

/-- The mask inverts bits 7..0, keeps bit 8 and sets bit 9 of `q_m` (10_state.md R19). -/
theorem invertedSymbol_low (q : Qm) {k : Nat} (h : k < 8) : (invertedSymbol q).getLsbD k = !q.getLsbD k := by
  have hm : invMask.getLsbD k = true := by
    have : ∀ k < 8, invMask.getLsbD k = true := by decide
    exact this k h
  simp [invertedSymbol, plainSymbol_getLsbD, hm]

theorem invertedSymbol_flag (q : Qm) : (invertedSymbol q).getLsbD 8 = q.getLsbD 8 := by
  rw [invertedSymbol, BitVec.getLsbD_xor, plainSymbol_getLsbD, show invMask.getLsbD 8 = false by decide, Bool.xor_false]

theorem invertedSymbol_top (q : Qm) : (invertedSymbol q).getLsbD 9 = true := by
  rw [invertedSymbol, BitVec.getLsbD_xor, plainSymbol_getLsbD, BitVec.getLsbD_of_ge q 9 (by omega)]
  decide

/-- Bit 9 of `q_m` unmodified is clear. -/
theorem plainSymbol_top (q : Qm) : (plainSymbol q).getLsbD 9 = false := by
  rw [plainSymbol_getLsbD]
  exact BitVec.getLsbD_of_ge q 9 (by omega)

/-- The payload of `q_m` unmodified, and of `q_m` XOR `INV_MASK` (30_encoding.md R40). -/
theorem plainSymbol_payload (q : Qm) : (plainSymbol q).extractLsb' 0 8 = q.extractLsb' 0 8 := by
  apply BitVec.eq_of_getLsbD_eq
  intro i hi
  simp only [BitVec.getLsbD_extractLsb', plainSymbol_getLsbD]

theorem invertedSymbol_payload (q : Qm) : (invertedSymbol q).extractLsb' 0 8 = ~~~(q.extractLsb' 0 8) := by
  apply BitVec.eq_of_getLsbD_eq
  intro i hi
  rw [BitVec.getLsbD_extractLsb', BitVec.getLsbD_not, BitVec.getLsbD_extractLsb', Nat.zero_add, invertedSymbol_low q hi]
  simp [hi]

/-- The ones of the 8 encoded bits, as the imbalance counts them. -/
theorem onesBelow_code (q : Qm) : (2 * onesBelow q 8 : Int) - 8 = imbalanceOf q := by
  have : onesBelow q 8 = onesBelow (lowByte q) 8 := onesBelow_congr fun k hk => by simp [lowByte, hk]
  simp [imbalanceOf, byteImbalance, popcount, this]

/-- The disparity of `q_m` sent unmodified (40_encode.md R60). -/
theorem plainSymbol_disparity (q : Qm) :
    2 * (onesBelow (plainSymbol q) 10 : Int) - 10 = imbalanceOf q - 2 * (1 - flagOf q) := by
  have h8 : onesBelow (plainSymbol q) 8 = onesBelow q 8 := onesBelow_congr fun k _ => plainSymbol_getLsbD q k
  have hb := onesBelow_code q
  have h9 : (plainSymbol q).getLsbD 9 = false := by rw [plainSymbol_getLsbD]; exact BitVec.getLsbD_of_ge q 9 (by omega)
  have hs : onesBelow (plainSymbol q) 10 = onesBelow q 8 + (q.getLsbD 8).toNat := by
    rw [onesBelow, onesBelow, h9, plainSymbol_getLsbD, h8]
    rfl
  rw [hs, flagOf]
  cases q.getLsbD 8 <;> simp <;> omega

/-- The disparity of `q_m` sent XOR `INV_MASK` (40_encode.md R60). -/
theorem invertedSymbol_disparity (q : Qm) :
    2 * (onesBelow (invertedSymbol q) 10 : Int) - 10 = 2 * flagOf q - imbalanceOf q := by
  have h8 : onesBelow (invertedSymbol q) 8 + onesBelow q 8 = 8 := onesBelow_flip fun k hk => invertedSymbol_low q hk
  have hb := onesBelow_code q
  have hs : onesBelow (invertedSymbol q) 10 = onesBelow (invertedSymbol q) 8 + (q.getLsbD 8).toNat + 1 := by
    rw [onesBelow, onesBelow, invertedSymbol_top, invertedSymbol_flag]
    rfl
  rw [hs, flagOf]
  cases q.getLsbD 8 <;> simp <;> omega

/-- Stage 2 in one statement: which symbol, and which new disparity, under which arm's condition. -/
theorem balance_cases (rd : Int) (q : Qm) :
    (rd = 0 ∨ imbalanceOf q = 0) ∧
      (flagOf q = 1 ∧ balanceSymbol rd q = plainSymbol q ∧ balanceDisparity rd q = rd + imbalanceOf q ∨
       flagOf q = 0 ∧ balanceSymbol rd q = invertedSymbol q ∧ balanceDisparity rd q = rd - imbalanceOf q) ∨
    ¬(rd = 0 ∨ imbalanceOf q = 0) ∧ (rd > 0 ∧ imbalanceOf q > 0 ∨ rd < 0 ∧ imbalanceOf q < 0) ∧
      balanceSymbol rd q = invertedSymbol q ∧ balanceDisparity rd q = rd + 2 * flagOf q - imbalanceOf q ∨
    ¬(rd = 0 ∨ imbalanceOf q = 0) ∧ ¬(rd > 0 ∧ imbalanceOf q > 0 ∨ rd < 0 ∧ imbalanceOf q < 0) ∧
      balanceSymbol rd q = plainSymbol q ∧ balanceDisparity rd q = rd + imbalanceOf q - 2 * (1 - flagOf q) := by
  obtain ⟨ha, hc⟩ | ⟨hb, hn, hc⟩ | ⟨hb, hn, hc⟩ := chooseArm_cases rd (imbalanceOf q)
  · refine .inl ⟨hc, ?_⟩
    obtain ⟨hf, _⟩ | ⟨hf, _⟩ := flagOf_cases q
    · exact .inr (by simp [balanceSymbol, balanceDisparity, ha, hf])
    · exact .inl (by simp [balanceSymbol, balanceDisparity, ha, hf])
  · exact .inr (.inl ⟨hn, hc, by simp [balanceSymbol, balanceDisparity, hb]⟩)
  · exact .inr (.inr ⟨hn, hc, by simp [balanceSymbol, balanceDisparity, hb]⟩)

/-- A data symbol is one of the two symbols its code can become. -/
theorem dataSymbol_cases (rd : Int) (d : Byte) :
    dataSymbol rd d = plainSymbol (minimize d) ∨ dataSymbol rd d = invertedSymbol (minimize d) := by
  unfold dataSymbol
  rcases balance_cases rd (minimize d) with ⟨_, ⟨_, h, _⟩ | ⟨_, h, _⟩⟩ | ⟨_, _, h, _⟩ | ⟨_, _, h, _⟩ <;> simp [h]

/-- A step of the chain: XOR or XNOR of the bit just produced (40_encode.md R53). -/
theorem chainBit_step (xnor : Bool) (d : Byte) {k : Nat} (h : 1 ≤ k) :
    chainBit xnor d k =
      if xnor then !(Bool.xor (chainBit xnor d (k - 1)) (d.getLsbD k))
      else Bool.xor (chainBit xnor d (k - 1)) (d.getLsbD k) := by
  obtain ⟨j, rfl⟩ : ∃ j, k = j + 1 := ⟨k - 1, by omega⟩
  rfl

/-- The bits of stage 1 (40_encode.md R53). -/
theorem minimize_low (d : Byte) {k : Nat} (h : k ≤ 7) : (minimize d).getLsbD k = chainBit (useXnor d) d k := by
  have hk : (minimize d).getLsbD k = (chainByte (useXnor d) d).getLsbD k := by
    rw [minimize, BitVec.getLsbD_cons, if_neg (by omega)]
  rw [hk, chainByte, BitVec.getLsbD_ofBoolListLE]
  obtain rfl | rfl | rfl | rfl | rfl | rfl | rfl | rfl :
      k = 0 ∨ k = 1 ∨ k = 2 ∨ k = 3 ∨ k = 4 ∨ k = 5 ∨ k = 6 ∨ k = 7 := by omega
  all_goals rfl

theorem minimize_flag (d : Byte) : (minimize d).getLsbD 8 = !useXnor d := by
  rw [minimize, BitVec.getLsbD_cons, if_pos rfl, flagBit]

end Sys2Proof.Machine
end

