-- ==== Sys2Proof/Laws/State.lean ====
section
/-! SUPPORT. What each state update leaves in each field, one lemma per field per update. -/

namespace Sys2Proof.Machine

variable (s : State) (r : FaultRecord) (v : Out) (y : Symbol) (d : Int) (m : Mode)

@[simp] theorem recordFault_created : (recordFault r s).created = s.created := rfl
@[simp] theorem recordFault_rd : (recordFault r s).rd = s.rd := rfl
@[simp] theorem recordFault_ls : (recordFault r s).ls = s.ls := rfl
@[simp] theorem recordFault_mode : (recordFault r s).mode = s.mode := rfl
@[simp] theorem recordFault_fault : (recordFault r s).fault = some r := rfl
@[simp] theorem recordFault_out : (recordFault r s).out = none := rfl
@[simp] theorem recordFault_pending : (recordFault r s).pending = s.pending := rfl

@[simp] theorem drive_created : (drive v s).created = s.created := rfl
@[simp] theorem drive_rd : (drive v s).rd = s.rd := rfl
@[simp] theorem drive_ls : (drive v s).ls = s.ls := rfl
@[simp] theorem drive_mode : (drive v s).mode = s.mode := rfl
@[simp] theorem drive_fault : (drive v s).fault = s.fault := rfl
@[simp] theorem drive_out : (drive v s).out = some v := rfl
@[simp] theorem drive_pending : (drive v s).pending = s.pending := rfl

@[simp] theorem emitSymbol_created : (emitSymbol y d m s).created = s.created := rfl
@[simp] theorem emitSymbol_rd : (emitSymbol y d m s).rd = d := rfl
@[simp] theorem emitSymbol_ls : (emitSymbol y d m s).ls = some y := rfl
@[simp] theorem emitSymbol_mode : (emitSymbol y d m s).mode = m := rfl
@[simp] theorem emitSymbol_fault : (emitSymbol y d m s).fault = s.fault := rfl
@[simp] theorem emitSymbol_out : (emitSymbol y d m s).out = some (.symbol y) := rfl
@[simp] theorem emitSymbol_pending : (emitSymbol y d m s).pending = s.pending := rfl

@[simp] theorem createInstance_created : (createInstance s).created = true := rfl
@[simp] theorem createInstance_rd : (createInstance s).rd = 0 := rfl
@[simp] theorem createInstance_ls : (createInstance s).ls = none := rfl
@[simp] theorem createInstance_mode : (createInstance s).mode = .blanking := rfl
@[simp] theorem createInstance_fault : (createInstance s).fault = none := rfl
@[simp] theorem createInstance_out : (createInstance s).out = none := rfl
@[simp] theorem createInstance_pending : (createInstance s).pending = s.pending := rfl

/-- A live instance exists and has recorded no fault. -/
theorem live_iff : s.live = true ↔ s.created = true ∧ s.fault = none := by
  simp [State.live]

@[simp] theorem drive_live : (drive v s).live = s.live := rfl
@[simp] theorem emitSymbol_live : (emitSymbol y d m s).live = s.live := rfl
@[simp] theorem createInstance_live : (createInstance s).live = true := rfl
@[simp] theorem recordFault_live : (recordFault r s).live = false := by simp [State.live]

@[simp] theorem drive_lsv : (drive v s).lsv = s.lsv := rfl
@[simp] theorem emitSymbol_lsv : (emitSymbol y d m s).lsv = true := rfl
@[simp] theorem createInstance_lsv : (createInstance s).lsv = false := rfl
@[simp] theorem recordFault_lsv : (recordFault r s).lsv = s.lsv := rfl

end Sys2Proof.Machine
end

