-- ==== Sys2Proof/Laws/Ops.lean ====
section
/-! SUPPORT. What the shared operations can do: taking a command, a checked command, and the operand checks. -/

namespace Sys2Proof.Machine

variable {s t : State} {k : Host.Outcome State Fault Refusal}

/-- A live instance takes the command. -/
@[simp] theorem takeCommand_live (h : s.live = true) : takeCommand s k = k := by
  obtain ⟨hc, hf⟩ := (live_iff s).1 h
  simp [takeCommand, hc, hf]

/-- A stopped instance takes no command. -/
theorem takeCommand_stopped {r : FaultRecord} (hc : s.created = true) (hf : s.fault = some r) :
    takeCommand s k = .fault (.stopped r) := by
  simp [takeCommand, hc, hf]

/-- An instance that does not exist takes no command. -/
theorem takeCommand_uncreated (hc : s.created = false) : takeCommand s k = .refused .beforeInit := by
  simp [takeCommand, hc]

/-- Taking a command answers a next state only in a live instance, and it is the command's. -/
theorem takeCommand_next (h : takeCommand s k = .next t) : s.live = true ∧ k = .next t := by
  cases hc : s.created
  · simp [takeCommand, hc] at h
  · cases hf : s.fault
    · exact ⟨(live_iff s).2 ⟨hc, hf⟩, by simpa [takeCommand, hc, hf] using h⟩
    · simp [takeCommand, hc, hf] at h

/-- A checked command answers the fault's state or the command's own, and only in a live instance. -/
theorem checked_next {f : Option FaultRecord} {u : State} (h : checked f s u = .next t) :
    s.live = true ∧ ((∃ r, f = some r ∧ t = recordFault r s) ∨ (f = none ∧ t = u)) := by
  obtain ⟨hl, h⟩ := takeCommand_next h
  refine ⟨hl, ?_⟩
  cases f with
  | none => exact .inr ⟨rfl, by simpa using h.symm⟩
  | some r => exact .inl ⟨r, rfl, by simpa [takeFault] using h.symm⟩

@[simp] theorem checked_none_live {u : State} (h : s.live = true) : checked none s u = .next u := by
  simp [checked, h]

@[simp] theorem checked_some_live {r : FaultRecord} {u : State} (h : s.live = true) :
    checked (some r) s u = .next (recordFault r s) := by
  simp [checked, takeFault, h]

/-- Both ENC inputs are in range exactly when no range fault applies (40_encode.md R45). -/
@[simp] theorem encFault_eq_none {d c : Nat} : encFault d c = none ↔ d ≤ 255 ∧ c ≤ 3 := by
  unfold encFault Config.maxData Config.maxControl
  split <;> [skip; split] <;> simp <;> omega

/-- The data check comes first (40_encode.md R45). -/
theorem encFault_data {d c : Nat} (h : d > 255) : encFault d c = some (.dataRange d) := by
  simp [encFault, Config.maxData, h]

theorem encFault_control {d c : Nat} (hd : d ≤ 255) (h : c > 3) : encFault d c = some (.controlRange c) := by
  simp [encFault, Config.maxData, Config.maxControl, h, Nat.not_lt.2 hd]

@[simp] theorem helperFault_eq_none {x : Nat} : helperFault x = none ↔ x ≤ 255 := by
  unfold helperFault Config.maxOperand
  split <;> simp <;> omega

theorem helperFault_high {x : Nat} (h : x > 255) : helperFault x = some (.helperRange x) := by
  simp [helperFault, Config.maxOperand, h]

end Sys2Proof.Machine
end

