-- ==== Sys2Proof/Laws/Exec.lean ====
section
/-! SUPPORT. What a command and a step can do: one inversion lemma for `exec`, one for `step`, and what a live instance answers. -/

namespace Sys2Proof.Machine

variable {s t : State}

/-- Everything a command can do when it answers a next state. -/
inductive ExecNext (i : Instr) (s : State) : State → Prop where
  /-- One fault is recorded and nothing else changes (60_exceptions.md R83). -/
  | faulted (r : FaultRecord) (live : s.live = true) (due : operationFaults i s ≠ []) : ExecNext i s (recordFault r s)
  /-- ENC.CTL in range (40_encode.md R50). -/
  | control (c d : Nat) (live : s.live = true) (hi : i = .encCtl c d) (hd : d ≤ 255) (hc : c ≤ 3) :
      ExecNext i s (emitSymbol (ctrlSym (ctrlOf c)) 0 .blanking s)
  /-- ENC.DAT in range (40_encode.md R51). -/
  | data (d c : Nat) (live : s.live = true) (hi : i = .encDat d c) (hd : d ≤ 255) (hc : c ≤ 3) :
      ExecNext i s (emitSymbol (dataSymbol s.rd (byteOf d)) (dataDisparity s.rd (byteOf d)) .active s)
  /-- A helper or a diagnostic read drives `out` (41_helpers.md R63, 42_lifecycle_diag.md R76). -/
  | observed (v : Out) (live : s.live = true) (hi : observesOnly i = true) : ExecNext i s (drive v s)
  /-- INIT, on a live instance or on one not yet created (42_lifecycle_diag.md R73). -/
  | created (hs : s.live = true ∨ s.created = false) (hi : i = .init) : ExecNext i s (createInstance s)

/-- A command that answers a next state does one of those things. -/
theorem exec_next {i : Instr} (h : exec i s = .next t) : ExecNext i s t := by
  cases i with
  | encCtl c d =>
    obtain ⟨hl, ⟨r, hf, rfl⟩ | ⟨hf, rfl⟩⟩ := checked_next h
    · refine .faulted r hl ?_
      intro h0
      simp [operationFaults, dataInput, controlInput, helperInput, Option.filter] at h0
      have := encFault_eq_none (d := d) (c := c)
      simp_all
    · obtain ⟨hd, hc⟩ := encFault_eq_none.1 hf
      exact .control c d hl rfl hd hc
  | encDat d c =>
    obtain ⟨hl, ⟨r, hf, rfl⟩ | ⟨hf, rfl⟩⟩ := checked_next h
    · refine .faulted r hl ?_
      intro h0
      simp [operationFaults, dataInput, controlInput, helperInput, Option.filter] at h0
      have := encFault_eq_none (d := d) (c := c)
      simp_all
    · obtain ⟨hd, hc⟩ := encFault_eq_none.1 hf
      exact .data d c hl rfl hd hc
  | popcnt x =>
    obtain ⟨hl, ⟨r, hf, rfl⟩ | ⟨hf, rfl⟩⟩ := checked_next h
    · refine .faulted r hl ?_
      intro h0
      simp [operationFaults, dataInput, controlInput, helperInput, Option.filter] at h0
      have := helperFault_eq_none (x := x)
      simp_all
    · exact .observed _ hl rfl
  | byteimb x =>
    obtain ⟨hl, ⟨r, hf, rfl⟩ | ⟨hf, rfl⟩⟩ := checked_next h
    · refine .faulted r hl ?_
      intro h0
      simp [operationFaults, dataInput, controlInput, helperInput, Option.filter] at h0
      have := helperFault_eq_none (x := x)
      simp_all
    · exact .observed _ hl rfl
  | rddisp =>
    change checked none s (drive (.disparity s.rd) s) = .next t at h
    obtain ⟨hl, ⟨r, hf, rfl⟩ | ⟨hf, rfl⟩⟩ := checked_next h
    · cases hf
    · exact .observed _ hl rfl
  | rdlast =>
    change execRdlast s = .next t at h
    unfold execRdlast at h
    split at h
    case _ hls =>
      obtain ⟨hl, ⟨r, hf, rfl⟩ | ⟨hf, rfl⟩⟩ := checked_next h
      · exact .faulted r hl (by simp [operationFaults, State.lsv, hls])
      · cases hf
    case _ hls =>
      obtain ⟨hl, ⟨r, hf, rfl⟩ | ⟨hf, rfl⟩⟩ := checked_next h
      · cases hf
      · exact .observed _ hl rfl
  | init =>
    change execInit s = .next t at h
    unfold execInit at h
    split at h
    · obtain ⟨hl, ⟨r, hf, rfl⟩ | ⟨hf, rfl⟩⟩ := checked_next h
      · cases hf
      · exact .created (.inl hl) rfl
    case _ hc =>
      cases h
      exact .created (.inr (by simpa using hc)) rfl

/-- A step that answers a next state issues the first command of the stream: an operation's effect, or a reserved word's
fault. -/
theorem step_next (h : step s = .next t) :
    ∃ c rest, s.pending = c :: rest ∧
      ((∃ i, readCommand c = .ok i ∧ ExecNext i { s with pending := rest } t) ∨
       (∃ w, c = .word w ∧ s.live = true ∧ t = recordFault (.reservedCommand w) { s with pending := rest })) := by
  unfold step nextCommand at h
  cases hp : s.pending with
  | nil => simp [hp] at h
  | cons c rest =>
    simp only [hp] at h
    refine ⟨c, rest, rfl, ?_⟩
    cases hr : readCommand c with
    | ok i => exact .inl ⟨i, rfl, exec_next (by simpa [hr] using h)⟩
    | error w =>
      simp only [hr] at h
      obtain ⟨hl, h⟩ := takeCommand_next h
      have hc : c = .word w := by
        cases c with
        | op i => simp [readCommand] at hr
        | word v =>
          simp only [readCommand] at hr
          split at hr
          · cases hr
          · cases hr; rfl
      exact .inr ⟨w, hc, hl, by simpa [takeFault] using h.symm⟩

theorem exec_encCtl_live {c d : Nat} (hl : s.live = true) (hd : d ≤ 255) (hc : c ≤ 3) :
    exec (.encCtl c d) s = .next (emitSymbol (ctrlSym (ctrlOf c)) 0 .blanking s) := by
  simp [exec, execEncCtl, encFault_eq_none.2 ⟨hd, hc⟩, hl]

theorem exec_encDat_live {d c : Nat} (hl : s.live = true) (hd : d ≤ 255) (hc : c ≤ 3) :
    exec (.encDat d c) s =
      .next (emitSymbol (dataSymbol s.rd (byteOf d)) (dataDisparity s.rd (byteOf d)) .active s) := by
  simp [exec, execEncDat, encFault_eq_none.2 ⟨hd, hc⟩, hl]

theorem exec_popcnt_live {x : Nat} (hl : s.live = true) (hx : x ≤ 255) :
    exec (.popcnt x) s = .next (drive (.count (BitVec.ofNat 4 (popcount (byteOf x)))) s) := by
  simp [exec, execPopcnt, helperFault_eq_none.2 hx, hl]

theorem exec_byteimb_live {x : Nat} (hl : s.live = true) (hx : x ≤ 255) :
    exec (.byteimb x) s = .next (drive (.imbalance (BitVec.ofInt 5 (byteImbalance (byteOf x)))) s) := by
  simp [exec, execByteimb, helperFault_eq_none.2 hx, hl]

theorem exec_rddisp_live (hl : s.live = true) : exec .rddisp s = .next (drive (.disparity s.rd) s) := by
  simp [exec, execRddisp, hl]

theorem exec_rdlast_live {y : Symbol} (hl : s.live = true) (hy : s.ls = some y) :
    exec .rdlast s = .next (drive (.symbol y) s) := by
  simp [exec, execRdlast, hl, hy]

theorem exec_rdlast_empty (hl : s.live = true) (hy : s.ls = none) : exec .rdlast s = .next (recordFault .noValue s) := by
  simp [exec, execRdlast, hl, hy]

theorem exec_init_live (hl : s.live = true) : exec .init s = .next (createInstance s) := by
  simp [exec, execInit, ((live_iff s).1 hl).1, hl]

theorem exec_init_uncreated (hc : s.created = false) : exec .init s = .next (createInstance s) := by
  simp [exec, execInit, hc]

/-- No command runs on a stopped instance, INIT included (60_exceptions.md R83). -/
theorem exec_stopped {r : FaultRecord} (i : Instr) (hc : s.created = true) (hf : s.fault = some r) :
    exec i s = .fault (.stopped r) := by
  cases i <;>
    simp only [exec, execEncCtl, execEncDat, execPopcnt, execByteimb, execRddisp, execRdlast, execInit, checked, hc, if_true,
      takeCommand_stopped hc hf]
  split <;> rfl

/-- The first fault the rules list for an ENC is the one its checks give (60_exceptions.md R82). -/
theorem operationFaults_enc (s : State) (c d : Nat) :
    (operationFaults (.encCtl c d) s).head? = encFault d c ∧ (operationFaults (.encDat d c) s).head? = encFault d c := by
  simp only [operationFaults, dataInput, controlInput, helperInput, encFault, Config.maxData, Config.maxControl, Option.filter]
  by_cases hd : d > 255 <;> by_cases hc : c > 3 <;> simp [hd, hc]

theorem operationFaults_helper (s : State) (x : Nat) :
    (operationFaults (.popcnt x) s).head? = helperFault x ∧ (operationFaults (.byteimb x) s).head? = helperFault x := by
  simp only [operationFaults, dataInput, controlInput, helperInput, helperFault, Config.maxOperand, Option.filter]
  by_cases hx : x > 255 <;> simp [hx]

/-- On a live instance a command always answers a next state: its first fault recorded, or its effect without a fault. -/
theorem exec_live (i : Instr) (s : State) (hl : s.live = true) :
    ∃ u, u.fault = none ∧
      exec i s = match (operationFaults i s).head? with
        | some r => .next (recordFault r s)
        | none => .next u := by
  have hf := ((live_iff s).1 hl).2
  cases i with
  | encCtl c d =>
    rw [(operationFaults_enc s c d).1]
    refine ⟨emitSymbol (ctrlSym (ctrlOf c)) 0 .blanking s, hf, ?_⟩
    simp only [exec, execEncCtl, checked, takeCommand_live hl]
    cases encFault d c <;> rfl
  | encDat d c =>
    rw [(operationFaults_enc s c d).2]
    refine ⟨emitSymbol (dataSymbol s.rd (byteOf d)) (dataDisparity s.rd (byteOf d)) .active s, hf, ?_⟩
    simp only [exec, execEncDat, checked, takeCommand_live hl]
    cases encFault d c <;> rfl
  | popcnt x =>
    rw [(operationFaults_helper s x).1]
    refine ⟨drive (.count (BitVec.ofNat 4 (popcount (byteOf x)))) s, hf, ?_⟩
    simp only [exec, execPopcnt, checked, takeCommand_live hl]
    cases helperFault x <;> rfl
  | byteimb x =>
    rw [(operationFaults_helper s x).2]
    refine ⟨drive (.imbalance (BitVec.ofInt 5 (byteImbalance (byteOf x)))) s, hf, ?_⟩
    simp only [exec, execByteimb, checked, takeCommand_live hl]
    cases helperFault x <;> rfl
  | rddisp => exact ⟨drive (.disparity s.rd) s, hf, by rw [exec_rddisp_live hl]; rfl⟩
  | rdlast =>
    cases hy : s.ls with
    | none =>
      refine ⟨createInstance s, rfl, ?_⟩
      rw [exec_rdlast_empty hl hy]
      simp [operationFaults, dataInput, controlInput, helperInput, State.lsv, hy]
    | some y =>
      refine ⟨drive (.symbol y) s, hf, ?_⟩
      rw [exec_rdlast_live hl hy]
      simp [operationFaults, dataInput, controlInput, helperInput, State.lsv, hy]
  | init => exact ⟨createInstance s, rfl, by rw [exec_init_live hl]; rfl⟩

/-- After any command that answers a next state the instance exists. -/
theorem exec_next_created {i : Instr} (h : exec i s = .next t) : t.created = true := by
  cases exec_next h with
  | faulted _ hl => exact ((live_iff s).1 hl).1
  | control _ _ hl => exact ((live_iff s).1 hl).1
  | data _ _ hl => exact ((live_iff s).1 hl).1
  | observed _ hl => exact ((live_iff s).1 hl).1
  | created => rfl

end Sys2Proof.Machine
end

