-- ==== Sys2Proof/Laws/PerInstr.lean ====
section
/-! SUPPORT. A statement for every instruction, one lemma per constructor: an instruction's encoding carries the fixed bits of its own row of the opcode map (30_encoding.md R37), whatever its operands. -/

namespace Sys2Proof.Laws.RowOfEncoding

/-- The encoding of `i` matches a row of the opcode map, and that row is `i`'s. -/
def Statement (i : Instr) : Prop := ∃ r ∈ opcodeMap, r.hits (encode i) = true ∧ r.mnemonic = i.mnemonic

theorem encCtl (control data : Nat) : Statement (.encCtl control data) :=
  ⟨_, by simp [opcodeMap], (opcodeMap_hits _).1.2 (by simp [encode]), rfl⟩

theorem encDat (data control : Nat) : Statement (.encDat data control) :=
  ⟨_, by simp [opcodeMap], (opcodeMap_hits _).2.1.2 (by simp [encode]), rfl⟩

theorem popcnt (x : Nat) : Statement (.popcnt x) :=
  ⟨_, by simp [opcodeMap], (opcodeMap_hits _).2.2.1.2 (by simp [encode]), rfl⟩

theorem byteimb (x : Nat) : Statement (.byteimb x) :=
  ⟨_, by simp [opcodeMap], (opcodeMap_hits _).2.2.2.1.2 (by simp [encode]), rfl⟩

theorem rddisp : Statement .rddisp := ⟨_, by simp [opcodeMap], (opcodeMap_hits _).2.2.2.2.1.2 (by simp [encode]), rfl⟩

theorem rdlast : Statement .rdlast := ⟨_, by simp [opcodeMap], (opcodeMap_hits _).2.2.2.2.2.1.2 (by simp [encode]), rfl⟩

theorem init : Statement .init := ⟨_, by simp [opcodeMap], (opcodeMap_hits _).2.2.2.2.2.2.2 (by simp [encode]), rfl⟩

end Sys2Proof.Laws.RowOfEncoding
end

