-- ==== Sys2Proof/Laws/Platform.lean ====
section
/-! SUPPORT. One turn of a system of instances: the instance whose turn it is, and the others (20_memory.md R29). -/

namespace Sys2Proof.Machine

variable {n : Nat}

theorem stepAt_self (sys : Platform n) (k : Fin n) : (stepAt sys k)[k] = stepOrStay sys[k] := by
  simp [stepAt]

theorem stepAt_other (sys : Platform n) {k j : Fin n} (h : j ≠ k) : (stepAt sys k)[j] = sys[j] := by
  simp only [stepAt, Fin.getElem_fin]
  exact Vector.getElem_set_ne _ _ fun h' => h (Fin.ext h'.symm)

end Sys2Proof.Machine
end

