-- ==== Sys2Proof/Tests/Slice0.lean ====
section
/-! SUPPORT. Small tests with results taken from the spec (each names its vector), the well-formedness smoke tests, and a witness for every statement that has hypotheses. -/

namespace Sys2Proof.Tests

open Sys2Proof Sys2Proof.Machine

/-- The next state of an outcome. -/
def nextOf (o : Host.Outcome State Fault Refusal) : Option State :=
  match o with
  | .next t => some t
  | .fault _ => none
  | .refused _ => none

/-- What a command drives, and the RD it leaves. -/
def result (o : Host.Outcome State Fault Refusal) : Option (Option Out × Int) := (nextOf o).map fun t => (t.out, t.rd)

/-- The fault a command records. -/
def recorded (o : Host.Outcome State Fault Refusal) : Option FaultRecord := (nextOf o).bind State.fault

/-- A live instance at disparity `rd`, in active, with 0x1FF as its last symbol. -/
def at_ (rd : Int) : State := { State.reset with rd := rd, ls := some 0x1FF#10, mode := .active }

/-- An instance that has stopped with NO_VALUE. -/
def dead : State := { State.reset with fault := some .noValue }

/-! ### Well-formedness: an ill-formed term for each check -/

theorem test_wf_control_data : (Instr.encCtl 0 256).wf = false := by decide
theorem test_wf_control_control : (Instr.encCtl 4 0).wf = false := by decide
theorem test_wf_data_data : (Instr.encDat 256 0).wf = false := by decide
theorem test_wf_data_control : (Instr.encDat 0 4).wf = false := by decide
theorem test_wf_popcnt : (Instr.popcnt 256).wf = false := by decide
theorem test_wf_byteimb : (Instr.byteimb 256).wf = false := by decide

/-! ### Decoding, from the patterns of 30_encoding.md R37 written out bit by bit -/

theorem test_decode_encCtl : decode 0b00001111111111#14 = .ok (.encCtl 3 0xFF) := by decide
theorem test_decode_encDat : decode 0b00011110100101#14 = .ok (.encDat 0xA5 3) := by decide
theorem test_decode_popcnt : decode 0b00100010000000#14 = .ok (.popcnt 0x80) := by decide
theorem test_decode_byteimb : decode 0b01000011111110#14 = .ok (.byteimb 0xFE) := by decide
theorem test_decode_rddisp : decode 0b01100000000000#14 = .ok .rddisp := by decide
theorem test_decode_rdlast : decode 0b10000000000000#14 = .ok .rdlast := by decide
theorem test_decode_init : decode 0b10100000000000#14 = .ok .init := by decide
/-- POP-06: bit 8 set. -/
theorem test_decode_popcnt_reserved : decode 0x0900#14 = .error .reservedBits := by decide
/-- IMB-07: bit 10 set. -/
theorem test_decode_byteimb_reserved : decode 0x1400#14 = .error .reservedBits := by decide
/-- LIF-07: RDDISP with X nonzero. -/
theorem test_decode_rddisp_reserved : decode 0x1801#14 = .error .reservedBits := by decide
/-- LIF-08. -/
theorem test_decode_op_reserved : decode 0x3000#14 = .error .reservedOp ∧ decode 0x3800#14 = .error .reservedOp := by decide
/-- R42: ENC.DAT 0x01 is 0x0401 and ENC.CTL 1 is 0x0100. -/
theorem test_encode_examples :
    encode (.ofCall 0x01 0 true) = 0x0401#14 ∧ encode (.ofCall 0 1 false) = 0x0100#14 := by decide
theorem test_tableWord : decodeTableWord 16 0x2000 = some .rdlast ∧ decodeTableWord 14 0x3000 = none := by decide
/-- A number with a bit above bit 13 is no command word. -/
theorem test_tableWord_wide : decodeTableWord 16 0x4000 = none := by decide
theorem test_fetchWord_runs : result (step (State.reset.withFetchWord 16 0x0401)) = some (some (.symbol 0x1FF#10), 8) := by decide

/-! ### One step of each command -/

/-- CTL-02. -/
theorem test_encCtl_resets : result (exec (.encCtl 1 0) (at_ (-8))) = some (some (.symbol 0x0AB#10), 0) := by decide
/-- CTL-07: the data check comes first. -/
theorem test_encCtl_dataRange : recorded (exec (.encCtl 4 0x100) (at_ 2)) = some (.dataRange 0x100) := by decide
/-- DAT-18: arm B, flag set. -/
theorem test_encDat_armB : result (exec (.encDat 0x00 0) (at_ (-8))) = some (some (.symbol 0x3FF#10), 2) := by decide
/-- DAT-16: arm C, flag clear. -/
theorem test_encDat_armC : result (exec (.encDat 0xFF 3) (at_ (-2))) = some (some (.symbol 0x0FF#10), 4) := by decide
/-- POP-02. -/
theorem test_popcnt_eight : result (exec (.popcnt 0xFF) (at_ 4)) = some (some (.count 8#4), 4) := by decide
/-- POP-07. -/
theorem test_popcnt_range : recorded (exec (.popcnt 0x100) (at_ 4)) = some (.helperRange 0x100) := by decide
/-- IMB-04: -6 is 11010. -/
theorem test_byteimb_minus_six : result (exec (.byteimb 0x01) (at_ 4)) = some (some (.imbalance 0b11010#5), 4) := by decide
/-- IMB-02: +8 is 01000. -/
theorem test_byteimb_eight : result (exec (.byteimb 0xFF) (at_ 4)) = some (some (.imbalance 0b01000#5), 4) := by decide
/-- Program P1, command 2. -/
theorem test_rddisp : result (exec .rddisp (at_ (-8))) = some (some (.disparity (-8)), -8) := by decide
/-- LIF-03. -/
theorem test_rdlast : result (exec .rdlast (at_ 8)) = some (some (.symbol 0x1FF#10), 8) := by decide
/-- Program P5. -/
theorem test_rdlast_noValue : nextOf (exec .rdlast State.reset) = some dead := by decide
/-- LIF-05. -/
theorem test_init_clears : (nextOf (exec .init (at_ 6))).map (fun t => (t.rd, t.lsv)) = some (0, false) := by decide
/-- Program P6, command 2: the state written before is kept. -/
theorem test_reserved_word :
    nextOf (step { at_ 0 with pending := [.word 0x3000#14] }) =
      some { at_ 0 with fault := some (.reservedCommand 0x3000#14) } := by decide
/-- R83: a stopped instance takes no command. -/
theorem test_stopped : exec .init dead = .fault (.stopped .noValue) := by rfl
/-- R91: before INIT. -/
theorem test_before_init : exec (.encDat 0 0) State.uncreated = .refused .beforeInit := by rfl

/-! ### Witnesses: the hypotheses of each statement can be met together -/

theorem witness_DecodeEncodeRoundTrip :
    (Instr.encCtl 3 255).wf = true ∧ (Instr.encDat 255 3).wf = true ∧ (Instr.popcnt 255).wf = true ∧
    (Instr.byteimb 255).wf = true ∧ Instr.rddisp.wf = true ∧ Instr.rdlast.wf = true ∧ Instr.init.wf = true := by decide
theorem witness_EncodeDecodeRoundTrip : decode 0x0FFF#14 = .error .reservedBits ∧ decode 0x07FF#14 = .ok (.encDat 255 3) := by
  decide
theorem witness_OpcodeMapSelectsOneCommand :
    decode 0x08FF#14 = .ok (.popcnt 255) ∧ (opcodeMap.filter (·.hits 0x08FF#14)).length = 1 ∧
    (opcodeMap.filter (·.hits 0x3FFF#14)).length = 0 := by decide
theorem witness_ReservedWordsFault :
    reservedWord 0x3000#14 ∧ reservedWord 0x2801#14 ∧
    ({ at_ 2 with pending := [.word 0x3000#14, .op .init] } : State).live = true := by
  unfold reservedWord; decide
theorem witness_EncodingFormula : (3 ≤ 3 ∧ 255 ≤ 255) ∧ (encode (.ofCall 255 3 true)).toNat = 0x07FF := by decide
theorem witness_StepRunsDecodedCommand :
    decode 0x0401#14 = .ok (.encDat 1 0) ∧ ({ at_ 0 with pending := [.word 0x0401#14] } : State).pending = [.word 0x0401#14] ∧
    ({ at_ 0 with pending := [.op .init] } : State).pending = [.op .init] ∧ State.reset.pending = [] ∧
    decodeTableWord 16 0x0401 = some (.encDat 1 0) := by decide
theorem witness_ResetValues : State.uncreated.created = false := rfl
theorem witness_StepKeepsInvariant :
    ({ at_ 8 with pending := [.op (.encDat 0x01 0)] } : State).Inv ∧
    (nextOf (step { at_ 8 with pending := [.op (.encDat 0x01 0)] })).isSome = true := by decide
theorem witness_ReachableDisparitiesExact :
    legalDisparity (-8) ∧ legalDisparity 8 ∧
    (nextOf (Host.Core.run core 1 { State.reset with pending := [.op (.encDat 0x01 0)] })).map State.rd = some 8 := by decide
theorem witness_DisparityAlwaysEven :
    (at_ 8).live = true ∧ (at_ 8).rd % 2 = 0 ∧
    (nextOf (step { at_ 8 with pending := [.word 0x0401#14] })).isSome = true := by decide
theorem witness_ModeTransitions :
    (nextOf (exec (.encCtl 3 255) (at_ 8))).map State.fault = some none ∧
    (nextOf (exec (.encDat 255 3) (at_ 8))).map State.fault = some none ∧
    (nextOf (exec .init State.uncreated)).isSome = true ∧
    (observesOnly (.popcnt 0) = true ∧ (nextOf (exec (.popcnt 0) (at_ 8))).isSome = true) ∧
    (recorded (exec (.encCtl 4 0) (at_ 8))).isSome = true ∧
    ((State.reset.mode = .blanking → State.reset.rd = 0) ∧
      (nextOf (step { State.reset with pending := [.op .rddisp] })).map State.mode = some .blanking) := by decide
theorem witness_OnlyControlAndInitResetDisparity :
    (Instr.encDat 0x10 0).wf = true ∧ (at_ 8).live = true ∧ (at_ 8).Inv ∧
    (nextOf (exec (.encDat 0x10 0) (at_ 8))).map State.rd = some 8 := by decide
theorem witness_ControlPathResult :
    (0x03FF#14).extractLsb' 10 4 = 0b0000#4 ∧ (at_ 8).live = true ∧
    (nextOf (exec (.encCtl 3 255) (at_ 8))).map State.fault = some none := by decide
/-- The two word clauses, the two fault clauses, and the operands DAT-18 for the last. -/
theorem witness_DataPathResult :
    (0x07FF#14).extractLsb' 10 4 = 0b0001#4 ∧ (at_ (-8)).live = true ∧ 256 > 255 ∧ 4 > 3 ∧
    (false = true ↔ popcount (BitVec.ofNat 8 0) > 4 ∨ (popcount (BitVec.ofNat 8 0) = 4 ∧ (0 : Nat).testBit 0 = false)) ∧
    (0x100#9).getLsbD 0 = (0 : Nat).testBit 0 ∧
    (∀ k : Nat, k < 8 → 1 ≤ k → (0x100#9).getLsbD k = Bool.xor ((0x100#9).getLsbD (k - 1)) ((0 : Nat).testBit k)) ∧
    (0x100#9).getLsbD 8 = !false ∧
    (1 : Int) = (if (0x100#9).getLsbD 8 then 1 else 0) ∧ (-8 : Int) = 2 * (popcount ((0x100#9).extractLsb' 0 8) : Int) - 8 ∧
    ((at_ (-8)).rd < 0 ∧ (0x100#9).zeroExtend 10 ^^^ 0x2FF#10 = 0x3FF#10 ∧ (at_ (-8)).rd + 2 * 1 - -8 = 2) := by decide
/-- The chain's first and last step, on 0xAA, an XNOR value (DAT-07). -/
theorem witness_ChainBits : (1 ≤ 1 ∧ 1 ≤ 7) ∧ (1 ≤ 7 ∧ 7 ≤ 7) ∧ minimize 0xAA#8 = 0x0CC#9 := by decide
theorem witness_ClosedFormsOfStageOne : 0 ≤ 7 ∧ 7 ≤ 7 ∧ minimizeClosed 0xAA#8 = 0x0CC#9 := by decide
theorem witness_InversionMask : 0 ≤ 7 ∧ 7 ≤ 7 ∧ 0x0FF#10 ^^^ invMask = 0x200#10 := by decide
/-- DAT-11 (b = 0), and RD = 0 with the flag clear (DAT-05). -/
theorem witness_ArmARule :
    (at_ 4).live = true ∧ imbalanceOf (minimize (BitVec.ofNat 8 0x10)) = 0 ∧ (minimize (BitVec.ofNat 8 0x10)).getLsbD 8 = true ∧
    (at_ 0).rd = 0 ∧ (minimize (BitVec.ofNat 8 0x1E)).getLsbD 8 = false := by decide
/-- DAT-19, and DAT-18 for negative signs. -/
theorem witness_ArmBRule :
    (at_ 8).live = true ∧ (at_ 8).rd ≠ 0 ∧ imbalanceOf (minimize (BitVec.ofNat 8 0x01)) ≠ 0 ∧
    ((at_ 8).rd > 0 ↔ imbalanceOf (minimize (BitVec.ofNat 8 0x01)) > 0) ∧
    ((at_ (-8)).rd > 0 ↔ imbalanceOf (minimize (BitVec.ofNat 8 0x00)) > 0) := by decide
/-- DAT-26. -/
theorem witness_ArmCRule :
    (at_ 8).live = true ∧ (at_ 8).rd ≠ 0 ∧ imbalanceOf (minimize (BitVec.ofNat 8 0x00)) ≠ 0 ∧
    ¬((at_ 8).rd > 0 ↔ imbalanceOf (minimize (BitVec.ofNat 8 0x00)) > 0) := by decide
theorem witness_DisparityChangeIsSymbolDisparity : (at_ (-8)).live = true ∧ (255 ≤ 255 ∧ 3 ≤ 3) := by decide
/-- P3's first symbols sum to RD; and a stream on an instance not yet created. -/
theorem witness_DisparityIsRunningSum :
    (at_ 0).rd = 0 ∧ (runBalance [.encDat 0x00 0, .encDat 0x00 0, .rddisp] 0 (at_ 0)).map Prod.fst = some 2 ∧
    State.uncreated.created = false ∧ (runBalance [.init, .encDat 0x01 0] 0 State.uncreated).map Prod.fst = some 8 := by decide
/-- S-3, and DAT-29. -/
theorem witness_SelfBalancingPair :
    (at_ 0).live = true ∧ (at_ 0).rd = 0 ∧ 252 ≤ 255 ∧ (at_ 2).live = true ∧ (at_ 2).rd = 2 := by decide
/-- Two data symbols that agree, from one data value at two disparities; and a legal disparity. -/
theorem witness_DataSymbolsDistinct :
    dataSymbol (-8) 0x10#8 = dataSymbol 8 0x10#8 ∧ legalDisparity 8 := by decide
theorem witness_IgnoredInputs : (0 ≤ 255 ∧ 255 ≤ 255) ∧ (0 ≤ 3 ∧ 3 ≤ 3) := by decide
theorem witness_InputContract :
    (at_ 2).live = true ∧ 256 > 255 ∧ (255 ≤ 255 ∧ 4 > 3) ∧ decode 0x07FF#14 = .ok (.encDat 255 3) := by decide
theorem witness_EncodeReadsOnlyDisparity :
    (at_ 0).live = true ∧ State.reset.live = true ∧ (at_ 0).rd = State.reset.rd ∧
    ((Instr.encCtl 3 255).wf = true ∧ (Instr.encDat 255 3).wf = true) ∧
    (nextOf (runOps [.encCtl 3 255, .encDat 255 3] (at_ 0))).isSome = true := by decide
theorem witness_PopcntResult :
    (0x08FF#14).extractLsb' 8 6 = 0b001000#6 ∧ ((0x0900#14).extractLsb' 11 3 = 0b001#3 ∧ (0x0900#14).extractLsb' 8 3 ≠ 0#3) ∧
    (at_ 2).live = true ∧ 256 > 255 ∧ 255 ≤ 255 := by decide
theorem witness_ByteimbResult :
    (0x10FF#14).extractLsb' 8 6 = 0b010000#6 ∧ ((0x1400#14).extractLsb' 11 3 = 0b010#3 ∧ (0x1400#14).extractLsb' 8 3 ≠ 0#3) ∧
    (at_ 2).live = true ∧ 256 > 255 ∧ 255 ≤ 255 := by decide
theorem witness_ImbalanceLaws : legalDisparity (-8) ∧ byteImbalance 0x00#8 = -8 := by decide
theorem witness_InitResult :
    ((0x2801#14).extractLsb' 11 3 = 0b101#3 ∧ (0x2801#14).extractLsb' 0 11 ≠ 0#11) ∧ (at_ 8).live = true ∧
    State.uncreated.created = false ∧ (nextOf (exec .init (at_ 8))).isSome = true ∧
    (dead.created = true ∧ dead.fault = some .noValue) := by decide
theorem witness_RddispResult :
    ((0x1801#14).extractLsb' 11 3 = 0b011#3 ∧ (0x1801#14).extractLsb' 0 11 ≠ 0#11) ∧ (at_ 8).live = true ∧
    (nextOf (exec (.encCtl 0 0) (at_ 8))).map State.fault = some none := by decide
theorem witness_RdlastResult :
    ((0x2001#14).extractLsb' 11 3 = 0b100#3 ∧ (0x2001#14).extractLsb' 0 11 ≠ 0#11) ∧
    (State.reset.live = true ∧ State.reset.lsv = false) ∧ ((at_ 8).live = true ∧ (at_ 8).ls = some 0x1FF#10) ∧
    ((nextOf (exec (.encCtl 1 0) (at_ 8))).bind (emittedSymbol (.encCtl 1 0)) = some 0x0AB#10) ∧
    (recorded (exec (.encCtl 4 0) (at_ 8))).isSome = true := by decide
theorem witness_ReadsAndHelpersAreIdempotent :
    (observesOnly .rdlast = true ∧ (nextOf (exec .rdlast (at_ 8))).map State.fault = some none) ∧
    (nextOf (exec .init (at_ 8))).isSome = true ∧ ((at_ 0).live = true ∧ (at_ 0).rd = 0) := by decide
theorem witness_InsertedReadsChangeNothing :
    (nextOf (runOps [.encDat 0x00 0, .rddisp, .rdlast, .popcnt 255, .byteimb 0, .encDat 0x01 0] State.reset)).map State.fault =
      some none := by decide
theorem witness_CommandBeforeInitRefused : State.uncreated.created = false ∧ Instr.rddisp ≠ .init := by decide
theorem witness_EveryCommandAtAnyTime :
    (State.reset.live = true ∧ (Instr.encDat 255 3).wf = true) ∧
    ((at_ 8).live = true ∧ Instr.rdlast.wf = true ∧ (at_ 8).lsv = true) := by decide
theorem witness_ResultOutputs :
    (at_ 8).Inv ∧ (nextOf (exec .rddisp (at_ 8))).map State.fault = some none ∧
    (recorded (exec (.popcnt 256) (at_ 8))).isSome = true := by decide
theorem witness_FaultCodes :
    recorded (exec .rdlast State.reset) = some .noValue ∧ (nextOf (execReserved 0x3000#14 (at_ 8))).isSome = true ∧
    decode 0x2000#14 = .ok .rdlast ∧ recorded (exec (.byteimb 256) (at_ 8)) = some (.helperRange 256) := by decide
theorem witness_FaultPriority :
    (({ at_ 8 with pending := [.word 0x2801#14] } : State).live = true ∧ reservedWord 0x2801#14) ∧
    operationFaults (.encDat 256 4) (at_ 8) = [.dataRange 256, .controlRange 4] ∧
    operationFaults (.encDat 255 3) (at_ 8) = [] := by
  unfold reservedWord; decide
theorem witness_FaultStopsInstance :
    recorded (exec .rdlast State.reset) = some .noValue ∧ (dead.created = true ∧ dead.fault = some .noValue) ∧
    (0 : Fin 2) ≠ 1 := by decide
theorem witness_FaultsArePrecise :
    (nextOf (runOps [.encDat 0x55 0] State.reset)).isSome = true ∧
    ((nextOf (runOps [.encDat 0x55 0] State.reset)).bind fun u => recorded (exec (.popcnt 256) u)) = some (.helperRange 256) := by
  decide
theorem witness_StreamRunsInIssueOrder : (at_ 8).pending = [] := rfl
theorem witness_FiveBitRegisterAgrees : legalDisparity (-8) ∧ legalDisparity 8 := by decide
theorem witness_PairTableStaysBalanced : (at_ 0).live = true ∧ (at_ 0).rd = 0 := by decide

end Sys2Proof.Tests
end

section
/-! SUPPORT. The step by the head of the caller's stream (20_memory.md R28), what a table word decodes to and puts in the stream (30_encoding.md R37), and the statement that a step executes the decoded command. -/

namespace Sys2Proof.Machine

variable {s : State} {c : Command} {rest : List Command} {w : CmdWord} {i : Instr} {nbits v : Nat}

/-- With a command left, the step issues it and executes the operation it asks for. -/
theorem step_of_readCommand_ok (hp : s.pending = c :: rest) (hr : readCommand c = .ok i) :
    step s = exec i { s with pending := rest } := by
  simp [step, nextCommand, hp, hr]

/-- With no command left there is no step (42_lifecycle_diag.md R77). -/
theorem step_of_pending_nil (hp : s.pending = []) : step s = .refused .noCommand := by
  simp [step, nextCommand, hp]

/-- A word that decodes asks for the command it decodes to. -/
theorem readCommand_word_of_decode (h : decode w = .ok i) : readCommand (.word w) = .ok i := by
  simp [readCommand, h]

/-- A table word stands for a command exactly when it fits the command word and decodes (30_encoding.md R37). -/
theorem decodeTableWord_eq_some :
    decodeTableWord nbits v = some i ↔
      v % 2 ^ nbits < 2 ^ Config.cmdWidth ∧ decode (BitVec.ofNat 14 (v % 2 ^ nbits)) = .ok i := by
  unfold decodeTableWord
  split
  · cases decode (BitVec.ofNat 14 (v % 2 ^ nbits)) <;> simp [Except.toOption, *]
  · simp [*]

/-- A number that fits the command word goes in front of the caller's stream as that word. -/
theorem withFetchWord_of_lt (h : v % 2 ^ nbits < 2 ^ Config.cmdWidth) :
    s.withFetchWord nbits v = { s with pending := .word (BitVec.ofNat 14 (v % 2 ^ nbits)) :: s.pending } := by
  simp [State.withFetchWord, issueWord, h]

/-- Settles O7: each clause is one of the step's equations; after `withFetchWord`, issuing the word just put in front of the
stream gives back the state. -/
theorem stepRunsDecodedCommand : Obligations.StepRunsDecodedCommand := by
  refine ⟨?word, ?operation, ?noCommand, ?tableWord⟩
  case word =>
    intro s w i rest hp hd
    exact step_of_readCommand_ok hp (readCommand_word_of_decode hd)
  case operation =>
    intro s i rest hp
    exact step_of_readCommand_ok hp rfl
  case noCommand =>
    intro s hp
    exact step_of_pending_nil hp
  case tableWord =>
    intro s nbits w i h
    obtain ⟨hw, hd⟩ := decodeTableWord_eq_some.1 h
    rw [withFetchWord_of_lt hw]
    exact step_of_readCommand_ok rfl (readCommand_word_of_decode hd)

end Sys2Proof.Machine
end

section
/-! SUPPORT. What stage 2 does to `RD` (40_encode.md R55 to R60): the disparity of the emitted symbol is the change, every change is even, and the legal range of 10_state.md R13 is kept. -/

namespace Sys2Proof.Machine

variable {rd : Int} {d : Byte}

/-- A data symbol changes `RD` by one of the four amounts of 10_state.md R14. -/
theorem balanceDisparity_change (rd : Int) (q : Qm) :
    balanceDisparity rd q - rd = imbalanceOf q ∨ balanceDisparity rd q - rd = -imbalanceOf q ∨
      balanceDisparity rd q - rd = 2 * flagOf q - imbalanceOf q ∨
      balanceDisparity rd q - rd = imbalanceOf q - 2 * (1 - flagOf q) := by
  rcases balance_cases rd q with ⟨_, ⟨_, _, h⟩ | ⟨_, _, h⟩⟩ | ⟨_, _, _, h⟩ | ⟨_, _, _, h⟩ <;> omega

/-- The change of `RD` is the disparity of the emitted symbol (40_encode.md R60). -/
theorem symbolDisparity_balanceSymbol (rd : Int) (q : Qm) :
    symbolDisparity (balanceSymbol rd q) = balanceDisparity rd q - rd := by
  have hplain : symbolDisparity (plainSymbol q) = imbalanceOf q - 2 * (1 - flagOf q) := plainSymbol_disparity q
  have hinverted : symbolDisparity (invertedSymbol q) = 2 * flagOf q - imbalanceOf q := invertedSymbol_disparity q
  rcases balance_cases rd q with ⟨_, ⟨_, hy, h⟩ | ⟨_, hy, h⟩⟩ | ⟨_, _, hy, h⟩ | ⟨_, _, hy, h⟩ <;> rw [hy, h] <;> omega

/-- An even `RD` stays even, since the imbalance is even (10_state.md R14). -/
theorem dataDisparity_even (d : Byte) (h : rd % 2 = 0) : dataDisparity rd d % 2 = 0 := by
  have hb := imbalanceOf_range (minimize d)
  have hchange := balanceDisparity_change rd (minimize d)
  unfold dataDisparity
  omega

/-- A legal `RD` stays in -8..+8: from 0 the imbalance itself is the bound, and in arms B and C the symbol pulls `RD` towards
0 (10_state.md R13). -/
theorem dataDisparity_legal (d : Byte) (h : legalDisparity rd) : legalDisparity (dataDisparity rd d) := by
  obtain ⟨heven, hlow, hhigh⟩ := h
  have hb := imbalanceOf_range (minimize d)
  have hf := flagOf_cases (minimize d)
  refine ⟨dataDisparity_even d heven, ?_⟩
  unfold dataDisparity
  rcases balance_cases rd (minimize d) with ⟨_, ⟨_, _, hv⟩ | ⟨_, _, hv⟩⟩ | ⟨_, _, _, hv⟩ | ⟨_, _, _, hv⟩ <;> omega

end Sys2Proof.Machine
end

section
/-! SUPPORT. What every step keeps: the induction principle of one step, the invariant of 10_state.md R13 to R16, and the running sum of R21. -/

namespace Sys2Proof.Machine

variable {s t : State} {i : Instr}

/-- What does not speak of the stream, and what a recorded fault and every command keep, every step keeps. -/
theorem step_keeps {P : State → Prop} (hstream : ∀ s p, P s → P { s with pending := p })
    (hfault : ∀ s r, P s → P (recordFault r s)) (hexec : ∀ i s t, ExecNext i s t → P s → P t)
    (hs : P s) (h : step s = .next t) : P t := by
  obtain ⟨_, rest, _, ⟨i, _, hi⟩ | ⟨w, _, _, rfl⟩⟩ := step_next h
  · exact hexec i _ t hi (hstream s rest hs)
  · exact hfault _ _ (hstream s rest hs)

theorem legalDisparity_zero : legalDisparity 0 := by decide

/-- Creation meets the invariant, from every state. -/
theorem createInstance_inv (s : State) : (createInstance s).Inv := by
  refine ⟨legalDisparity_zero, fun _ => rfl, ?_⟩
  simp

/-- Every command keeps the invariant. -/
theorem execNext_inv (h : ExecNext i s t) (hs : s.Inv) : t.Inv := by
  cases h with
  | faulted => exact hs
  | control =>
    refine ⟨legalDisparity_zero, fun _ => rfl, ?_⟩
    simp
  | data d =>
    refine ⟨dataDisparity_legal (byteOf d) hs.1, ?_, fun _ => rfl⟩
    simp
  | observed => exact hs
  | created => exact createInstance_inv s

theorem step_inv (hs : s.Inv) (h : step s = .next t) : t.Inv :=
  step_keeps (P := State.Inv) (fun _ _ hs => hs) (fun _ _ hs => hs) (fun _ _ _ h hs => execNext_inv h hs) hs h

/-- Settles O10: the step executes a command, which keeps the invariant, or records a reserved word's fault. -/
theorem stepKeepsInvariant : Obligations.StepKeepsInvariant :=
  fun _ _ hs h => step_inv hs h

/-- A fault drives no symbol, so the running sum stands (10_state.md R21, 60_exceptions.md R83). -/
theorem carryBalance_recordFault (acc : Int) (r : FaultRecord) (hi : i ≠ .init) :
    carryBalance acc i (recordFault r s) = acc := by
  cases i with
  | init => exact absurd rfl hi
  | _ => rfl

theorem carryBalance_observed (acc : Int) (hi : observesOnly i = true) : carryBalance acc i t = acc := by
  cases i with
  | encCtl => cases hi
  | encDat => cases hi
  | init => cases hi
  | _ => rfl

/-- A sum that is `RD` before a command is `RD` after it. -/
theorem carryBalance_exec (h : exec i s = .next t) : carryBalance s.rd i t = t.rd := by
  cases exec_next h with
  | faulted r _ due =>
    have hi : i ≠ .init := by
      rintro rfl
      exact due rfl
    exact carryBalance_recordFault s.rd r hi
  | control c d live hi =>
    subst hi
    simp [carryBalance, ((live_iff s).1 live).2]
  | data d c live hi =>
    subst hi
    have hsum := symbolDisparity_balanceSymbol s.rd (minimize (byteOf d))
    simp only [carryBalance, emittedData, emitSymbol_out, emitSymbol_rd, dataSymbol, dataDisparity]
    omega
  | observed v _ hi => exact carryBalance_observed s.rd hi
  | created _ hi =>
    subst hi
    rfl

/-- A sum that starts at `RD` ends at `RD`. -/
theorem runBalance_rd (ops : List Instr) {total : Int} (h : runBalance ops s.rd s = some (total, t)) : t.rd = total := by
  induction ops generalizing s with
  | nil =>
    cases h
    rfl
  | cons i rest ih =>
    cases hi : exec i s with
    | next u =>
      simp only [runBalance, hi, carryBalance_exec hi] at h
      exact ih h
    | fault r => simp [runBalance, hi] at h
    | refused r => simp [runBalance, hi] at h

/-- Settles O28: each command carries the sum from `RD` to `RD`, and INIT starts both at 0. -/
theorem disparityIsRunningSum : Obligations.DisparityIsRunningSum := by
  refine ⟨?run, ?creation⟩
  case run =>
    rintro ops acc s t total rfl h
    exact runBalance_rd ops h
  case creation =>
    intro ops s t total hs h
    simp only [runBalance, exec_init_uncreated hs] at h
    exact runBalance_rd (s := createInstance s) ops h

end Sys2Proof.Machine
end

section
/-! SUPPORT. `RD` along whole runs (10_state.md R13, R14): which values a run reaches from reset, and that they are even. -/

namespace Sys2Proof.Machine

variable {s t : State}

/-- What every step keeps, every run keeps. -/
theorem run_keeps {P : State → Prop} (hstep : ∀ s t, P s → step s = .next t → P t) (k : Nat) (hs : P s)
    (h : Host.Core.run core k s = .next t) : P t := by
  induction k generalizing s with
  | zero =>
    cases h
    exact hs
  | succ k ih =>
    cases hu : step s with
    | next u => exact ih (hstep s u hs hu) (by simpa [Host.Core.run, core, hu] using h)
    | fault r => simp [Host.Core.run, core, hu] at h
    | refused r => simp [Host.Core.run, core, hu] at h

/-- One data symbol takes `RD` from 0 to any legal value. -/
theorem dataDisparity_zero_surjective {v : Int} (h : legalDisparity v) : ∃ d : Byte, dataDisparity 0 d = v := by
  obtain ⟨heven, hlow, hhigh⟩ := h
  obtain rfl | rfl | rfl | rfl | rfl | rfl | rfl | rfl | rfl :
      v = -8 ∨ v = -6 ∨ v = -4 ∨ v = -2 ∨ v = 0 ∨ v = 2 ∨ v = 4 ∨ v = 6 ∨ v = 8 := by omega
  · exact ⟨0x00#8, by decide⟩
  · exact ⟨0x03#8, by decide⟩
  · exact ⟨0x05#8, by decide⟩
  · exact ⟨0x09#8, by decide⟩
  · exact ⟨0x10#8, by decide⟩
  · exact ⟨0x08#8, by decide⟩
  · exact ⟨0x04#8, by decide⟩
  · exact ⟨0x02#8, by decide⟩
  · exact ⟨0x01#8, by decide⟩

/-- A stream of one ENC.DAT, run from reset. -/
theorem run_one_encDat (d : Byte) :
    ∃ t, Host.Core.run core 1 { State.reset with pending := [.op (.encDat d.toNat 0)] } = .next t ∧
      t.rd = dataDisparity 0 d := by
  have hd : byteOf d.toNat = d := by simp [byteOf]
  refine ⟨emitSymbol (dataSymbol 0 d) (dataDisparity 0 d) .active State.reset, ?_, rfl⟩
  have hstep : step { State.reset with pending := [.op (.encDat d.toNat 0)] } =
      .next (emitSymbol (dataSymbol 0 d) (dataDisparity 0 d) .active State.reset) := by
    rw [step_of_readCommand_ok rfl rfl, exec_encDat_live rfl (by omega) (by omega), hd]
    rfl
  simp [Host.Core.run, core, hstep]

/-- Settles O11: a run keeps the invariant, which the reset state meets with any stream; one ENC.DAT reaches each legal value. -/
theorem reachableDisparitiesExact : Obligations.ReachableDisparitiesExact := by
  intro v
  constructor
  · intro hv
    obtain ⟨d, rfl⟩ := dataDisparity_zero_surjective hv
    obtain ⟨t, ht, hrd⟩ := run_one_encDat d
    exact ⟨_, 1, t, ht, hrd⟩
  · rintro ⟨cmds, k, t, ht, rfl⟩
    have hreset : State.Inv { State.reset with pending := cmds } := createInstance_inv { State.reset with pending := cmds }
    exact (run_keeps (P := State.Inv) (fun _ _ => step_inv) k hreset ht).1

/-- Every command keeps an even `RD` even. -/
theorem execNext_rd_even {i : Instr} (h : ExecNext i s t) (hs : s.rd % 2 = 0) : t.rd % 2 = 0 := by
  cases h with
  | faulted => exact hs
  | control => rfl
  | data d => exact dataDisparity_even (byteOf d) hs
  | observed => exact hs
  | created => rfl

/-- Settles O12: ENC.CTL writes 0, ENC.DAT adds one of the four even amounts, and no other command writes a value but 0. -/
theorem disparityAlwaysEven : Obligations.DisparityAlwaysEven := by
  refine ⟨rfl, ?control, ?data, fun x => (byteImbalance_range x).1, ?flag, ?step⟩
  case control =>
    intro s c d hl hc hd
    exact ⟨_, exec_encCtl_live hl hd hc, rfl⟩
  case data =>
    intro s c d hl hc hd
    exact ⟨_, exec_encDat_live hl hd hc, balanceDisparity_change s.rd (minimize (byteOf d))⟩
  case flag =>
    intro q
    exact (flagOf_cases q).imp And.left And.left
  case step =>
    intro s t hs h
    exact step_keeps (P := fun s => s.rd % 2 = 0) (fun _ _ hs => hs) (fun _ _ hs => hs) (fun _ _ _ => execNext_rd_even) hs h

end Sys2Proof.Machine
end

section
/-! SUPPORT. The ghost `MODE` (10_state.md R16): what sets it, and that no outcome depends on it. -/

namespace Sys2Proof.Machine

variable {s t : State} {i : Instr}

/-- Two outcomes that differ at most in the `MODE` of the next state. -/
inductive AgreeButMode : Host.Outcome State Fault Refusal → Host.Outcome State Fault Refusal → Prop where
  | next (t : State) (m : Mode) : AgreeButMode (.next t) (.next { t with mode := m })
  | fault (r : Fault) : AgreeButMode (.fault r) (.fault r)
  | refused (r : Refusal) : AgreeButMode (.refused r) (.refused r)

theorem checked_uncreated {f : Option FaultRecord} {u : State} (hc : s.created = false) :
    checked f s u = .refused .beforeInit :=
  takeCommand_uncreated hc

theorem checked_stopped {f : Option FaultRecord} {u : State} {r : FaultRecord} (hc : s.created = true)
    (hf : s.fault = some r) : checked f s u = .fault (.stopped r) :=
  takeCommand_stopped hc hf

/-- Before INIT, stopped, or taking commands (70_reset_and_hazards.md R91, 60_exceptions.md R83). -/
theorem live_cases (s : State) :
    s.created = false ∨ (s.created = true ∧ ∃ r, s.fault = some r) ∨ s.live = true := by
  cases hc : s.created with
  | false => exact .inl rfl
  | true =>
    cases hf : s.fault with
    | some r => exact .inr (.inl ⟨rfl, r, rfl⟩)
    | none => exact .inr (.inr ((live_iff s).2 ⟨hc, hf⟩))

/-- Whether a checked command is taken, and which fault it records, does not depend on `MODE`. -/
theorem checked_agreeButMode (f : Option FaultRecord) (s t : State) (m m' : Mode) :
    AgreeButMode (checked f s t) (checked f { s with mode := m } { t with mode := m' }) := by
  obtain hc | ⟨hc, r, hf⟩ | hl := live_cases s
  · rw [checked_uncreated hc, checked_uncreated (s := { s with mode := m }) hc]
    exact .refused _
  · rw [checked_stopped hc hf, checked_stopped (s := { s with mode := m }) hc hf]
    exact .fault _
  · cases f with
    | none =>
      rw [checked_none_live hl, checked_none_live (s := { s with mode := m }) hl]
      exact .next t m'
    | some r =>
      rw [checked_some_live hl, checked_some_live (s := { s with mode := m }) hl]
      exact .next (recordFault r s) m

/-- No command's outcome depends on `MODE`, but for the `MODE` of the next state. -/
theorem exec_agreeButMode (i : Instr) (s : State) (m : Mode) : AgreeButMode (exec i s) (exec i { s with mode := m }) := by
  cases i with
  | encCtl c d => exact checked_agreeButMode _ s _ m .blanking
  | encDat d c => exact checked_agreeButMode _ s _ m .active
  | popcnt x => exact checked_agreeButMode _ s _ m m
  | byteimb x => exact checked_agreeButMode _ s _ m m
  | rddisp => exact checked_agreeButMode none s (drive (.disparity s.rd) s) m m
  | rdlast =>
    simp only [exec, execRdlast]
    split
    · exact checked_agreeButMode (some .noValue) s s m m
    case _ y _ => exact checked_agreeButMode none s (drive (.symbol y) s) m m
  | init =>
    simp only [exec, execInit]
    split
    · exact checked_agreeButMode _ s _ m .blanking
    · exact .next (createInstance s) .blanking

/-- The helpers, the diagnostic reads and every command that faults leave `MODE` as it was: the commands that write it find
`FAULT` empty and leave it so. -/
theorem execNext_mode_kept (h : ExecNext i s t) (hi : observesOnly i = true ∨ t.fault ≠ none) : t.mode = s.mode := by
  cases h with
  | faulted => rfl
  | observed => rfl
  | control c d live heq =>
    subst heq
    simp [observesOnly, ((live_iff s).1 live).2] at hi
  | data d c live heq =>
    subst heq
    simp [observesOnly, ((live_iff s).1 live).2] at hi
  | created _ heq =>
    subst heq
    simp [observesOnly] at hi

/-- A command keeps `RD` pinned at 0 in blanking. -/
theorem execNext_pinned (h : ExecNext i s t) (hs : s.mode = .blanking → s.rd = 0) : t.mode = .blanking → t.rd = 0 := by
  cases h with
  | faulted => exact hs
  | control => exact fun _ => rfl
  | data => simp
  | observed => exact hs
  | created => exact fun _ => rfl

/-- ENC.CTL without a fault enters blanking. -/
theorem execNext_encCtl_mode {c d : Nat} (h : ExecNext (.encCtl c d) s t) (hf : t.fault = none) : t.mode = .blanking := by
  cases h with
  | faulted => simp at hf
  | control => rfl
  | data _ _ _ hi => cases hi
  | observed _ _ hi => cases hi
  | created _ hi => cases hi

/-- ENC.DAT without a fault enters active. -/
theorem execNext_encDat_mode {d c : Nat} (h : ExecNext (.encDat d c) s t) (hf : t.fault = none) : t.mode = .active := by
  cases h with
  | faulted => simp at hf
  | control _ _ _ hi => cases hi
  | data => rfl
  | observed _ _ hi => cases hi
  | created _ hi => cases hi

/-- INIT enters blanking; no fault is due to it. -/
theorem execNext_init_mode (h : ExecNext .init s t) : t.mode = .blanking := by
  cases h with
  | faulted _ _ due => exact absurd rfl due
  | control _ _ _ hi => cases hi
  | data _ _ _ hi => cases hi
  | observed _ _ hi => cases hi
  | created => rfl

/-- Settles O13: what sets `MODE` and what keeps it, command by command; the pinned disparity is kept by every step; and the
outcomes from two states that differ in `MODE` agree but for it. -/
theorem modeTransitions : Obligations.ModeTransitions := by
  refine ⟨?control, ?data, ?created, ?kept, ?pinned, ?unread⟩
  case control =>
    intro s t c d h hf
    exact execNext_encCtl_mode (exec_next h) hf
  case data =>
    intro s t c d h hf
    exact execNext_encDat_mode (exec_next h) hf
  case created =>
    intro s t h
    exact execNext_init_mode (exec_next h)
  case kept =>
    intro s t i h hi
    exact execNext_mode_kept (exec_next h) hi
  case pinned =>
    intro s t hs h
    exact step_keeps (P := fun s => s.mode = .blanking → s.rd = 0) (fun _ _ hs => hs) (fun _ _ hs => hs)
      (fun _ _ _ => execNext_pinned) hs h
  case unread =>
    intro s i m
    have hagree := exec_agreeButMode i s m
    generalize exec i s = o, exec i { s with mode := m } = o' at hagree ⊢
    cases hagree <;> rfl

end Sys2Proof.Machine
end

section
/-! SUPPORT. The 5-bit two's complement register (10_state.md R13, 92_eei_decisions.md D4): it holds an integer exactly while the integer fits, and its adder, zero test and sign bit are the integers'. -/

namespace Sys2Proof.Machine

variable {rd b : Int} {q : Qm}

theorem toInt_ofInt_of_legal (h : legalDisparity rd) : (BitVec.ofInt 5 rd).toInt = rd := by
  obtain ⟨_, hlow, hhigh⟩ := h
  exact BitVec.toInt_ofInt_eq_self (by decide) (by omega) (by omega)

theorem ofInt_eq_zero_of_legal (h : legalDisparity rd) : BitVec.ofInt 5 rd = 0#5 ↔ rd = 0 := by
  rw [← BitVec.toInt_inj, toInt_ofInt_of_legal h]
  rfl

theorem ofInt_msb_of_legal (h : legalDisparity rd) : (BitVec.ofInt 5 rd).msb = decide (rd < 0) := by
  rw [BitVec.msb_eq_toInt, toInt_ofInt_of_legal h]

/-- Subtraction in a register of any width is the integers', modulo the register's size. -/
theorem ofInt_sub {w : Nat} (x y : Int) : BitVec.ofInt w (x - y) = BitVec.ofInt w x - BitVec.ofInt w y := by
  rw [eq_sub_iff_add_eq, ← BitVec.ofInt_add, Int.sub_add_cancel]

/-- One input of the 5-bit adder of ones. -/
theorem extractLsb'_one_setWidth (x : Byte) (k : Nat) :
    (x.extractLsb' k 1).setWidth 5 = BitVec.ofNat 5 (x.getLsbD k).toNat := by
  apply BitVec.eq_of_toNat_eq
  rw [BitVec.toNat_setWidth, BitVec.extractLsb'_toNat, BitVec.toNat_ofNat, BitVec.getLsbD, Nat.toNat_testBit,
    Nat.shiftRight_eq_div_pow]

theorem onesRegister_eq (x : Byte) : onesRegister x = BitVec.ofNat 5 (popcount x) := by
  simp only [onesRegister, extractLsb'_one_setWidth, ← BitVec.ofNat_add, popcount, onesBelow, Nat.zero_add]

/-- The 5-bit imbalance is the imbalance. -/
theorem imbalanceRegister_eq (q : Qm) : imbalanceRegister q = BitVec.ofInt 5 (imbalanceOf q) := by
  have hcount : ∀ n ≤ 8, (BitVec.ofNat 5 n <<< 1) - 8#5 = BitVec.ofInt 5 (2 * (n : Int) - 8) := by decide
  rw [imbalanceRegister, onesRegister_eq]
  exact hcount _ (popcount_le (lowByte q))

/-- Zero tests and sign bits choose the arm the integers choose. -/
theorem armRegister_eq (hr : legalDisparity rd) (hb : legalDisparity b) :
    armRegister (BitVec.ofInt 5 rd) (BitVec.ofInt 5 b) = chooseArm rd b := by
  simp only [armRegister, chooseArm, ofInt_eq_zero_of_legal hr, ofInt_eq_zero_of_legal hb, ofInt_msb_of_legal hr,
    ofInt_msb_of_legal hb, decide_eq_decide]
  split
  · rfl
  · have hsigns : (rd < 0 ↔ b < 0) ↔ (rd > 0 ∧ b > 0) ∨ (rd < 0 ∧ b < 0) := by omega
    simp only [hsigns]

/-- The circuit chooses the arm of the integers from its two registers. -/
theorem armRegister_imbalance (q : Qm) (h : legalDisparity rd) :
    armRegister (BitVec.ofInt 5 rd) (imbalanceRegister q) = chooseArm rd (imbalanceOf q) := by
  rw [imbalanceRegister_eq, armRegister_eq h (imbalanceOf_range q)]

/-- The circuit's symbol is the integers'. -/
theorem symbolRegister_eq (q : Qm) (h : legalDisparity rd) : symbolRegister (BitVec.ofInt 5 rd) q = balanceSymbol rd q := by
  rw [symbolRegister, armRegister_imbalance q h, balanceSymbol]
  cases chooseArm rd (imbalanceOf q) with
  | a => obtain ⟨hf, h8⟩ | ⟨hf, h8⟩ := flagOf_cases q <;> rw [hf, h8] <;> rfl
  | b => rfl
  | c => rfl

/-- The circuit's next `RD` is the integers', modulo 32. -/
theorem disparityRegister_eq (q : Qm) (h : legalDisparity rd) :
    disparityRegister (BitVec.ofInt 5 rd) q = BitVec.ofInt 5 (balanceDisparity rd q) := by
  rw [disparityRegister, armRegister_imbalance q h, imbalanceRegister_eq, balanceDisparity]
  obtain ⟨hf, h8⟩ | ⟨hf, h8⟩ := flagOf_cases q
  · rw [hf, h8]
    cases chooseArm rd (imbalanceOf q) <;> simp [BitVec.ofInt_add, ofInt_sub]
  · rw [hf, h8]
    cases chooseArm rd (imbalanceOf q) <;> simp [BitVec.ofInt_add, ofInt_sub]

/-- Settles O53: the registers hold the integers modulo 32, and the old and the new `RD` are legal, so they are held exactly. -/
theorem fiveBitRegisterAgrees : Obligations.FiveBitRegisterAgrees := by
  intro rd d h
  refine ⟨toInt_ofInt_of_legal h, symbolRegister_eq (minimize d) h, ?_⟩
  rw [disparityRegister_eq (minimize d) h]
  exact toInt_ofInt_of_legal (dataDisparity_legal d h)

end Sys2Proof.Machine
end

section
/-! SUPPORT. The fixed values of 10_state.md: reset (R20), the control symbols (R18) and the masks of the data path (R19). -/

namespace Sys2Proof.Machine

/-- Settles O8: INIT before creation is the creation. -/
theorem resetValues : Obligations.ResetValues := by
  refine ⟨rfl, rfl, rfl, rfl, rfl, ?_⟩
  intro s hs
  exact ⟨createInstance s, exec_init_uncreated hs, rfl, rfl, rfl, rfl, rfl, rfl, rfl⟩

/-- Settles O9: both states hold the values of creation. -/
theorem resetMeetsInvariant : Obligations.ResetMeetsInvariant :=
  ⟨createInstance_inv State.reset, createInstance_inv State.uncreated⟩

/-- Settles O16: the four entries of the table. -/
theorem controlSymbolsExact : Obligations.ControlSymbolsExact := by
  exact ⟨rfl, rfl, rfl, rfl, rfl, rfl, rfl, rfl⟩

/-- The bits of `INV_MASK`: all of the ten but bit 8. -/
theorem invMask_getLsbD : ∀ k < 10, invMask.getLsbD k = decide (k ≠ 8) := by decide

/-- XOR with `INV_MASK` keeps bit 8 and inverts the others. -/
theorem xor_invMask_getLsbD (y : Symbol) {k : Nat} (h : k < 10) :
    (y ^^^ invMask).getLsbD k = if k = 8 then y.getLsbD k else !y.getLsbD k := by
  rw [BitVec.getLsbD_xor, invMask_getLsbD k h]
  split <;> simp [*]

/-- The mask 0x100 selects the flag bit. -/
theorem and_flagMask (q : Qm) : q &&& 0x100#9 ≠ 0#9 ↔ q.getLsbD 8 = true := by
  have hmask : 0x100#9 = BitVec.twoPow 9 8 := rfl
  rw [hmask, BitVec.and_twoPow]
  cases q.getLsbD 8 <;> decide

/-- The mask 0xFF selects the 8 encoded bits. -/
theorem and_lowMask (q : Qm) : q &&& 0xFF#9 = (lowByte q).zeroExtend 9 := by
  have hmask : ∀ k < 9, (0xFF#9).getLsbD k = decide (k < 8) := by decide
  apply BitVec.eq_of_getLsbD_eq
  intro k hk
  rw [BitVec.getLsbD_and, hmask k hk]
  simp [lowByte, hk, Bool.and_comm]

/-- Settles O26: the bits of the masks, and what XOR and AND with them leave of a value's bits. -/
theorem inversionMask : Obligations.InversionMask := by
  refine ⟨rfl, ?inversion, ?selection⟩
  case inversion =>
    intro y
    refine ⟨xor_invMask_getLsbD y (by decide), xor_invMask_getLsbD y (by decide), ?_⟩
    intro k hk
    rw [xor_invMask_getLsbD y (by omega), if_neg (by omega)]
  case selection =>
    intro q
    exact ⟨and_flagMask q, and_lowMask q⟩

end Sys2Proof.Machine
end

section
/-! SUPPORT. The caller's stream (20_memory.md R28): no command reads or writes it, and the steps on a stream of operations are the operations in issue order. -/

namespace Sys2Proof.Machine

variable {s t : State} {i : Instr}

/-- An outcome with another stream in its next state. -/
def withStream (p : List Command) : Host.Outcome State Fault Refusal → Host.Outcome State Fault Refusal
  | .next t => .next { t with pending := p }
  | .fault r => .fault r
  | .refused r => .refused r

/-- Whether a checked command is taken, and which fault it records, does not depend on the stream. -/
theorem checked_withStream (f : Option FaultRecord) (s t : State) (p : List Command) :
    checked f { s with pending := p } { t with pending := p } = withStream p (checked f s t) := by
  obtain hc | ⟨hc, r, hf⟩ | hl := live_cases s
  · rw [checked_uncreated hc, checked_uncreated (s := { s with pending := p }) hc]
    rfl
  · rw [checked_stopped hc hf, checked_stopped (s := { s with pending := p }) hc hf]
    rfl
  · cases f with
    | none =>
      rw [checked_none_live hl, checked_none_live (s := { s with pending := p }) hl]
      rfl
    | some r =>
      rw [checked_some_live hl, checked_some_live (s := { s with pending := p }) hl]
      rfl

/-- A command with another stream does what it does with its own, and the other stream stands. -/
theorem exec_withStream (i : Instr) (s : State) (p : List Command) :
    exec i { s with pending := p } = withStream p (exec i s) := by
  cases i with
  | encCtl c d => exact checked_withStream _ s (emitSymbol (ctrlSym (ctrlOf c)) 0 .blanking s) p
  | encDat d c =>
    exact checked_withStream _ s (emitSymbol (dataSymbol s.rd (byteOf d)) (dataDisparity s.rd (byteOf d)) .active s) p
  | popcnt x => exact checked_withStream _ s (drive (.count (BitVec.ofNat 4 (popcount (byteOf x)))) s) p
  | byteimb x => exact checked_withStream _ s (drive (.imbalance (BitVec.ofInt 5 (byteImbalance (byteOf x)))) s) p
  | rddisp => exact checked_withStream none s (drive (.disparity s.rd) s) p
  | rdlast =>
    simp only [exec, execRdlast]
    split
    · exact checked_withStream (some .noValue) s s p
    case _ y _ => exact checked_withStream none s (drive (.symbol y) s) p
  | init =>
    simp only [exec, execInit]
    split
    · exact checked_withStream none s (createInstance s) p
    · rfl

/-- Settles O50: whatever the outcome, it differs from the one with the other stream in that stream alone. -/
theorem commandsIgnoreTheStream : Obligations.CommandsIgnoreTheStream := by
  intro i s p
  rw [exec_withStream]
  cases exec i s <;> rfl

/-- No command writes the stream. -/
theorem execNext_pending (h : ExecNext i s t) : t.pending = s.pending := by
  cases h <;> rfl

/-- The step on a stream that begins with an operation is the operation's, and the rest of the stream is left. -/
theorem step_op_cons (i : Instr) (s : State) (rest : List Command) :
    step { s with pending := .op i :: rest } = withStream rest (exec i s) := by
  rw [step_of_readCommand_ok rfl rfl]
  exact exec_withStream i s rest

/-- Settles O51, by induction on the operations: each step executes the first of them, and the state it leaves differs from the
operation's own by the rest of the stream. -/
theorem streamRunsInIssueOrder : Obligations.StreamRunsInIssueOrder := by
  intro ops
  induction ops with
  | nil =>
    intro s hs
    cases s
    cases hs
    rfl
  | cons i rest ih =>
    intro s hs
    have hstep := step_op_cons i s (rest.map Command.op)
    cases hi : exec i s with
    | next t =>
      have ht : t.pending = [] := (execNext_pending (exec_next hi)).trans hs
      rw [hi] at hstep
      simpa [Host.Core.run, core, runOps, hstep, withStream, hi] using ih t ht
    | fault r => simp [Host.Core.run, core, runOps, hstep, withStream, hi]
    | refused r => simp [Host.Core.run, core, runOps, hstep, withStream, hi]

end Sys2Proof.Machine
end

section
/-! SUPPORT. Repeating a command (20_memory.md R27): the helpers and the reads write only `out` and do not read it, INIT leaves one state whatever it finds, and ENC.DAT reads the `RD` it writes. -/

namespace Sys2Proof.Machine

variable {s t : State} {i : Instr}

/-- A helper or a diagnostic read records a fault or drives a value, and does no more (41_helpers.md R63, 42_lifecycle_diag.md
R76). -/
theorem execNext_observed (h : ExecNext i s t) (hi : observesOnly i = true) :
    (∃ r, t = recordFault r s) ∨ ∃ v, t = drive v s := by
  cases h with
  | faulted r => exact .inl ⟨r, rfl⟩
  | observed v => exact .inr ⟨v, rfl⟩
  | control _ _ _ heq =>
    subst heq
    cases hi
  | data _ _ _ heq =>
    subst heq
    cases hi
  | created _ heq =>
    subst heq
    cases hi

/-- What the command before drove makes no difference to a helper or a diagnostic read. -/
theorem exec_drive_of_observesOnly (v : Out) (s : State) (hi : observesOnly i = true) : exec i (drive v s) = exec i s := by
  cases i with
  | encCtl => cases hi
  | encDat => cases hi
  | init => cases hi
  | popcnt => rfl
  | byteimb => rfl
  | rddisp => rfl
  | rdlast => rfl

/-- INIT that answers a next state leaves the encoder just created. -/
theorem execNext_init (h : ExecNext .init s t) : t = createInstance s := by
  cases h with
  | faulted _ _ due => exact absurd rfl due
  | control _ _ _ hi => cases hi
  | data _ _ _ hi => cases hi
  | observed _ _ hi => cases hi
  | created => rfl

/-- INIT twice is INIT once (42_lifecycle_diag.md R73). -/
theorem exec_init_idempotent (h : exec .init s = .next t) : exec .init t = .next t := by
  obtain rfl := execNext_init (exec_next h)
  exact exec_init_live (createInstance_live s)

/-- Settles O41: a helper or a read that did not fault only drove `out`, which repeating it does not read; the second
ENC.DAT 0x00 finds `RD` at -8, where the first found 0. -/
theorem readsAndHelpersAreIdempotent : Obligations.ReadsAndHelpersAreIdempotent := by
  refine ⟨?observed, fun _ _ => exec_init_idempotent, ?data⟩
  case observed =>
    intro s t i hi h
    obtain ⟨r, rfl⟩ | ⟨v, rfl⟩ := execNext_observed (exec_next h) hi
    · exact ⟨rfl, rfl, rfl, rfl, rfl, fun hf => nomatch hf⟩
    · exact ⟨rfl, rfl, rfl, rfl, rfl, fun _ => (exec_drive_of_observesOnly v s hi).trans h⟩
  case data =>
    intro s hl hrd
    have hfirst : dataSymbol 0 (byteOf 0) = 0x100#10 ∧ dataDisparity 0 (byteOf 0) = -8 := by decide
    have hsecond : dataSymbol (-8) (byteOf 0) = 0x3FF#10 := by decide
    refine ⟨_, _, exec_encDat_live hl (by decide) (by decide), exec_encDat_live hl (by decide) (by decide), ?_, ?_⟩
    · simp [hrd, hfirst]
    · simp [hrd, hfirst, hsecond]

end Sys2Proof.Machine
end

section
/-! SUPPORT. Any order of turns in a system of encoders (20_memory.md R29). -/

namespace Sys2Proof.Machine

/-- Settles O52, by induction on the turns: a turn of encoder `k` is one of its own, a turn of another leaves it. -/
theorem instancesIndependent : Obligations.InstancesIndependent := by
  intro n sys turns k
  induction turns generalizing sys with
  | nil => rfl
  | cons j rest ih =>
    have hrest : (interleave sys (j :: rest))[k] = runAlone (rest.count k) (stepAt sys j)[k] := ih (stepAt sys j)
    by_cases hj : j = k
    · subst hj
      rw [hrest, stepAt_self, List.count_cons_self]
      rfl
    · rw [hrest, stepAt_other sys (Ne.symm hj), List.count_cons_of_ne hj]

end Sys2Proof.Machine
end

section
/-! SUPPORT. The two round trips of the command word (30_encoding.md R34, R36, R42), and the agreement of the opcode map with the decoder (R37). `decode` is read here by the fields of the word, one equation per command. -/

namespace Sys2Proof

variable {w : CmdWord}

theorem decode_encCtl (hop : opField w = 0#3) (hde : deField w = 0#1) :
    decode w = .ok (.encCtl (cField w).toNat (xField w).toNat) := by
  simp [decode, hop, hde]

theorem decode_encDat (hop : opField w = 0#3) (hde : deField w = 1#1) :
    decode w = .ok (.encDat (xField w).toNat (cField w).toNat) := by
  simp [decode, hop, hde]

theorem decode_popcnt (hop : opField w = 1#3) (hmid : midField w = 0#3) : decode w = .ok (.popcnt (xField w).toNat) := by
  simp [decode, ifZero, hop, hmid]

theorem decode_byteimb (hop : opField w = 2#3) (hmid : midField w = 0#3) : decode w = .ok (.byteimb (xField w).toNat) := by
  simp [decode, ifZero, hop, hmid]

theorem decode_rddisp (hop : opField w = 3#3) (hlow : lowField w = 0#11) : decode w = .ok .rddisp := by
  simp [decode, ifZero, hop, hlow]

theorem decode_rdlast (hop : opField w = 4#3) (hlow : lowField w = 0#11) : decode w = .ok .rdlast := by
  simp [decode, ifZero, hop, hlow]

theorem decode_init (hop : opField w = 5#3) (hlow : lowField w = 0#11) : decode w = .ok .init := by
  simp [decode, ifZero, hop, hlow]

/-- An operand in range survives its conversion to a byte. -/
theorem toNat_ofNat_byte {x : Nat} (h : x ≤ 255) : (BitVec.ofNat 8 x).toNat = x :=
  Nat.mod_eq_of_lt (by omega)

/-- A control code in range survives its conversion to two bits. -/
theorem toNat_ofNat_ctrl {c : Nat} (h : c ≤ 3) : (BitVec.ofNat 2 c).toNat = c :=
  Nat.mod_eq_of_lt (by omega)

/-- Settles O1: the fields of the packed word are the operands, and an operand in range survives its field. -/
theorem decodeEncodeRoundTrip : Obligations.DecodeEncodeRoundTrip := by
  intro i hi
  cases i with
  | encCtl c d =>
    obtain ⟨hd, hc⟩ := (wf_encCtl c d).1 hi
    change decode (packWord 0#3 0#1 _ _) = _
    rw [decode_encCtl (opField_pack ..) (deField_pack ..), cField_pack, xField_pack, toNat_ofNat_ctrl hc,
      toNat_ofNat_byte hd]
  | encDat d c =>
    obtain ⟨hd, hc⟩ := (wf_encDat d c).1 hi
    change decode (packWord 0#3 1#1 _ _) = _
    rw [decode_encDat (opField_pack ..) (deField_pack ..), cField_pack, xField_pack, toNat_ofNat_ctrl hc,
      toNat_ofNat_byte hd]
  | popcnt x =>
    change decode (packWord 1#3 0#1 0#2 _) = _
    rw [decode_popcnt (opField_pack ..) (midField_pack ..), xField_pack, toNat_ofNat_byte ((wf_popcnt x).1 hi)]
  | byteimb x =>
    change decode (packWord 2#3 0#1 0#2 _) = _
    rw [decode_byteimb (opField_pack ..) (midField_pack ..), xField_pack, toNat_ofNat_byte ((wf_byteimb x).1 hi)]
  | rddisp => exact decode_rddisp (opField_pack ..) (lowField_pack ..)
  | rdlast => exact decode_rdlast (opField_pack ..) (lowField_pack ..)
  | init => exact decode_init (opField_pack ..) (lowField_pack ..)

/-- The two operand fields of a word hold values in range. -/
theorem fields_in_range (w : CmdWord) : (xField w).toNat ≤ 255 ∧ (cField w).toNat ≤ 3 := by
  have hx := (xField w).isLt
  have hc := (cField w).isLt
  omega

/-- A word with the given fields is their packing. -/
theorem packWord_of_fields {op : BitVec 3} {de : BitVec 1} {c : Ctrl} {x : Byte} (hop : opField w = op)
    (hde : deField w = de) (hc : cField w = c) (hx : xField w = x) : packWord op de c x = w := by
  rw [← hop, ← hde, ← hc, ← hx, packWord_fields]

/-- A word whose bits 10:8 are clear is packed from `OP` and `X`. -/
theorem packWord_of_midField {op : BitVec 3} {x : Byte} (hop : opField w = op) (hmid : midField w = 0#3)
    (hx : xField w = x) : packWord op 0#1 0#2 x = w := by
  obtain ⟨hde, hc⟩ := (midField_zero w).1 hmid
  exact packWord_of_fields hop hde hc hx

/-- A word whose bits 10:0 are clear is packed from `OP` alone. -/
theorem packWord_of_lowField {op : BitVec 3} (hop : opField w = op) (hlow : lowField w = 0#11) :
    packWord op 0#1 0#2 0#8 = w := by
  obtain ⟨hde, hc, hx⟩ := (lowField_zero w).1 hlow
  exact packWord_of_fields hop hde hc hx

/-- A word that selects a command is the encoding of that command, which is well-formed. -/
theorem wf_encode_of_decode {i : Instr} (h : decode w = .ok i) : i.wf = true ∧ encode i = w := by
  obtain ⟨hx, hc⟩ := fields_in_range w
  obtain ⟨hop, hde, hd⟩ | ⟨hop, hde, hd⟩ | ⟨hop, hmid, hd⟩ | ⟨hop, hmid, hd⟩ | ⟨hop, hlow, hd⟩ | ⟨hop, hlow, hd⟩ |
    ⟨hop, hlow, hd⟩ | ⟨_, _, hd⟩ | ⟨_, _, hd⟩ | ⟨_, hd⟩ := decode_cases w
  all_goals cases hd.symm.trans h
  · exact ⟨(wf_encCtl ..).2 ⟨hx, hc⟩, packWord_of_fields hop hde (by simp) (by simp)⟩
  · exact ⟨(wf_encDat ..).2 ⟨hx, hc⟩, packWord_of_fields hop hde (by simp) (by simp)⟩
  · exact ⟨(wf_popcnt _).2 hx, packWord_of_midField hop hmid (by simp)⟩
  · exact ⟨(wf_byteimb _).2 hx, packWord_of_midField hop hmid (by simp)⟩
  · exact ⟨rfl, packWord_of_lowField hop hlow⟩
  · exact ⟨rfl, packWord_of_lowField hop hlow⟩
  · exact ⟨rfl, packWord_of_lowField hop hlow⟩

/-- Settles O2: the decoder's case gives `OP` and the reserved-zero bits, and the operand fields are kept whole. -/
theorem encodeDecodeRoundTrip : Obligations.EncodeDecodeRoundTrip :=
  fun _ _ => wf_encode_of_decode

/-- Every command's encoding matches that command's row of the opcode map. -/
theorem row_of_encoding (i : Instr) : Laws.RowOfEncoding.Statement i := by
  cases i with
  | encCtl c d => exact Laws.RowOfEncoding.encCtl c d
  | encDat d c => exact Laws.RowOfEncoding.encDat d c
  | popcnt x => exact Laws.RowOfEncoding.popcnt x
  | byteimb x => exact Laws.RowOfEncoding.byteimb x
  | rddisp => exact Laws.RowOfEncoding.rddisp
  | rdlast => exact Laws.RowOfEncoding.rdlast
  | init => exact Laws.RowOfEncoding.init

/-- A word that selects a command matches that command's row. -/
theorem row_of_decode {i : Instr} (h : decode w = .ok i) : ∃ r ∈ opcodeMap, r.hits w = true ∧ r.mnemonic = i.mnemonic := by
  obtain ⟨_, rfl⟩ := wf_encode_of_decode h
  exact row_of_encoding i

/-- A word that matches a row selects that row's command. -/
theorem decode_of_row {r : OpRow} (hr : r ∈ opcodeMap) (h : r.hits w = true) :
    ∃ i, decode w = .ok i ∧ i.mnemonic = r.mnemonic := by
  obtain ⟨hencCtl, hencDat, hpopcnt, hbyteimb, hrddisp, hrdlast, hinit⟩ := opcodeMap_hits w
  simp only [opcodeMap, List.mem_cons, List.not_mem_nil, or_false] at hr
  obtain rfl | rfl | rfl | rfl | rfl | rfl | rfl := hr
  · obtain ⟨hop, hde⟩ := hencCtl.1 h
    exact ⟨_, decode_encCtl hop hde, rfl⟩
  · obtain ⟨hop, hde⟩ := hencDat.1 h
    exact ⟨_, decode_encDat hop hde, rfl⟩
  · obtain ⟨hop, hmid⟩ := hpopcnt.1 h
    exact ⟨_, decode_popcnt hop hmid, rfl⟩
  · obtain ⟨hop, hmid⟩ := hbyteimb.1 h
    exact ⟨_, decode_byteimb hop hmid, rfl⟩
  · obtain ⟨hop, hlow⟩ := hrddisp.1 h
    exact ⟨_, decode_rddisp hop hlow, rfl⟩
  · obtain ⟨hop, hlow⟩ := hrdlast.1 h
    exact ⟨_, decode_rdlast hop hlow, rfl⟩
  · obtain ⟨hop, hlow⟩ := hinit.1 h
    exact ⟨_, decode_init hop hlow, rfl⟩

/-- A row of the opcode map is known by its mnemonic. -/
theorem opcodeMap_mnemonic_injective : ∀ r ∈ opcodeMap, ∀ r' ∈ opcodeMap, r.mnemonic = r'.mnemonic → r = r' := by
  decide

/-- No word matches two rows: both would be the row of the one command it selects. -/
theorem opcodeMap_exclusive {r r' : OpRow} (hr : r ∈ opcodeMap) (hr' : r' ∈ opcodeMap) (h : r.hits w = true)
    (h' : r'.hits w = true) : r = r' := by
  obtain ⟨i, hi, hm⟩ := decode_of_row hr h
  obtain ⟨j, hj, hm'⟩ := decode_of_row hr' h'
  cases hi.symm.trans hj
  exact opcodeMap_mnemonic_injective r hr r' hr' (hm.symm.trans hm')

/-- A word matches no row exactly when it selects no command. -/
theorem no_row_iff_reserved : (∀ r ∈ opcodeMap, r.hits w = false) ↔ ∃ e, decode w = .error e := by
  constructor
  · intro hnone
    cases hd : decode w with
    | error e => exact ⟨e, rfl⟩
    | ok i =>
      obtain ⟨r, hr, hit, _⟩ := row_of_decode hd
      exact absurd hit (by simp [hnone r hr])
  · rintro ⟨e, he⟩ r hr
    cases hit : r.hits w with
    | false => rfl
    | true =>
      obtain ⟨i, hi, _⟩ := decode_of_row hr hit
      cases he.symm.trans hi

/-- Settles O3: a row and the decoder agree both ways, and the decoder selects one command. -/
theorem opcodeMapSelectsOneCommand : Obligations.OpcodeMapSelectsOneCommand := by
  refine ⟨rfl, fun w => ⟨?exclusive, ?rowOfCommand, ?commandOfRow, no_row_iff_reserved⟩⟩
  case exclusive => exact fun r hr r' hr' h h' => opcodeMap_exclusive hr hr' h h'
  case rowOfCommand => exact fun i h => row_of_decode h
  case commandOfRow => exact fun r hr h => decode_of_row hr h

/-- Settles O6: the decoder on nine literal words. -/
theorem specWordsDecode : Obligations.SpecWordsDecode := by
  unfold Obligations.SpecWordsDecode
  decide

end Sys2Proof
end

section
/-! SUPPORT. The number of a packed word (30_encoding.md R42). -/

namespace Sys2Proof

/-- The fields of a word do not overflow it when they are shifted into place. -/
theorem packWord_toNat (op : BitVec 3) (de : BitVec 1) (c : Ctrl) (x : Byte) :
    (packWord op de c x).toNat = (op.toNat <<< 11) ||| (de.toNat <<< 10) ||| (c.toNat <<< 8) ||| x.toNat := by
  have hop := op.isLt
  have hde := de.isLt
  have hc := c.isLt
  have hx := x.isLt
  simp only [packWord, BitVec.toNat_or, BitVec.toNat_shiftLeft, BitVec.toNat_setWidth, Nat.shiftLeft_eq]
  simp (disch := omega) only [Nat.mod_eq_of_lt]

/-- Settles O5: the number of a packed word is the formula of its fields, which hold operands in range as they are. -/
theorem encodingFormula : Obligations.EncodingFormula := by
  refine ⟨?enc, ?helper, rfl, rfl, rfl⟩
  case enc =>
    intro c d hc hd
    have hword (de : BitVec 1) : (packWord 0 de (BitVec.ofNat 2 c) (BitVec.ofNat 8 d)).toNat =
        (0 <<< 11) ||| (de.toNat <<< 10) ||| (c <<< 8) ||| d := by
      rw [packWord_toNat, toNat_ofNat_ctrl hc, toNat_ofNat_byte hd]
      rfl
    exact ⟨hword 0, hword 1⟩
  case helper =>
    intro x hx
    have hword (op : BitVec 3) : (packWord op 0 0 (BitVec.ofNat 8 x)).toNat = (op.toNat <<< 11) ||| x := by
      simp [packWord_toNat, toNat_ofNat_byte hx]
    exact ⟨hword 1, hword 2⟩

end Sys2Proof
end

section
/-! SUPPORT. Reserved words (30_encoding.md R39): which they are, and the step that executes one. -/

namespace Sys2Proof.Machine

variable {s : State} {w : CmdWord} {rest : List Command}

/-- No encoding is a reserved word: its `OP` is 000 to 101, and its reserved-zero bits are clear. -/
theorem not_reservedWord_encode (i : Instr) : ¬reservedWord (encode i) := by
  cases i <;> simp [reservedWord, encode]

/-- The reserved words are those the decoder refuses. -/
theorem reservedWord_iff_decode_error (w : CmdWord) : reservedWord w ↔ ∃ e, decode w = .error e := by
  constructor
  · intro hw
    cases hd : decode w with
    | error e => exact ⟨e, rfl⟩
    | ok i =>
      obtain ⟨_, rfl⟩ := wf_encode_of_decode hd
      exact absurd hw (not_reservedWord_encode i)
  · rintro ⟨e, he⟩
    obtain ⟨_, _, hd⟩ | ⟨_, _, hd⟩ | ⟨_, _, hd⟩ | ⟨_, _, hd⟩ | ⟨_, _, hd⟩ | ⟨_, _, hd⟩ | ⟨_, _, hd⟩ |
      ⟨hop, hmid, hd⟩ | ⟨hop, hlow, hd⟩ | ⟨hop, hd⟩ := decode_cases w
    all_goals cases hd.symm.trans he
    · exact .inr (.inr (.inl ⟨hop, hmid⟩))
    · exact .inr (.inr (.inr ⟨hop, hlow⟩))
    · exact hop.elim .inl fun h => .inr (.inl h)

/-- A reserved word asks for no operation. -/
theorem readCommand_word_of_reserved (h : reservedWord w) : readCommand (.word w) = .error w := by
  obtain ⟨e, he⟩ := (reservedWord_iff_decode_error w).1 h
  simp [readCommand, he]

/-- The step on a reserved word records its fault, when the encoder is live. -/
theorem step_reserved (hl : s.live = true) (hp : s.pending = .word w :: rest) (h : reservedWord w) :
    step s = .next (recordFault (.reservedCommand w) { s with pending := rest }) := by
  have hlive : State.live { s with pending := rest } = true := hl
  simp [step, nextCommand, hp, readCommand_word_of_reserved h, execReserved, takeFault, hlive]

/-- Settles O4: the decoder's errors are the forms of R39, and the step on one records the word. -/
theorem reservedWordsFault : Obligations.ReservedWordsFault :=
  fun w => ⟨reservedWord_iff_decode_error w, fun hw _ _ hl hp => step_reserved hl hp hw⟩

end Sys2Proof.Machine
end

section
/-! SUPPORT. The results (30_encoding.md R38, R40): the format of a data symbol, and what each command drives on `out`. -/

namespace Sys2Proof.Machine

variable {s t : State} {i : Instr}

/-- The two symbols a code can become differ in bit 9. -/
theorem plainSymbol_ne_invertedSymbol (q : Qm) : plainSymbol q ≠ invertedSymbol q := by
  intro heq
  have htop := plainSymbol_top q
  rw [heq, invertedSymbol_top] at htop
  cases htop

/-- Settles O25: a data symbol is `q_m` unmodified, with bit 9 clear, or `q_m` XOR the mask, with bit 9 set. -/
theorem dataSymbolFormat : Obligations.DataSymbolFormat := by
  intro rd d
  have hmask : (minimize d).zeroExtend 10 ^^^ 0x2FF#10 = invertedSymbol (minimize d) := rfl
  rw [hmask]
  obtain h | h := dataSymbol_cases rd d
  · rw [h, plainSymbol_top]
    exact ⟨plainSymbol_getLsbD _ 8, plainSymbol_payload _, by simp [plainSymbol_ne_invertedSymbol]⟩
  · rw [h, invertedSymbol_top]
    exact ⟨invertedSymbol_flag _, invertedSymbol_payload _, by simp⟩

/-- A checked command that left no fault did the command's own work. -/
theorem checked_next_of_fault_none {f : Option FaultRecord} {u : State} (h : checked f s u = .next t)
    (hf : t.fault = none) : t = u := by
  obtain ⟨_, ⟨r, _, rfl⟩ | ⟨_, rfl⟩⟩ := checked_next h
  · cases hf
  · rfl

/-- A command that left a fault drove no value (60_exceptions.md R83). -/
theorem execNext_out_of_fault (h : ExecNext i s t) (hf : t.fault ≠ none) : t.out = none := by
  cases h with
  | faulted => rfl
  | control _ _ hl => exact absurd ((live_iff s).1 hl).2 hf
  | data _ _ hl => exact absurd ((live_iff s).1 hl).2 hf
  | observed _ hl => exact absurd ((live_iff s).1 hl).2 hf
  | created => rfl

/-- RDLAST that left no fault drove the symbol of `LS` (42_lifecycle_diag.md R75). -/
theorem exec_rdlast_out (h : exec .rdlast s = .next t) (hf : t.fault = none) :
    ∃ y, s.ls = some y ∧ t.out = some (.symbol y) := by
  simp only [exec, execRdlast] at h
  split at h
  · obtain ⟨_, ⟨r, _, rfl⟩ | ⟨hnone, _⟩⟩ := checked_next h
    · cases hf
    · cases hnone
  case _ y hy =>
    obtain rfl := checked_next_of_fault_none h hf
    exact ⟨y, hy, rfl⟩

/-- The 4-bit count holds every population count of a byte (41_helpers.md R67). -/
theorem toNat_count (x : Byte) : (BitVec.ofNat 4 (popcount x)).toNat = popcount x := by
  have hle := popcount_le x
  exact Nat.mod_eq_of_lt (by omega)

/-- The 5-bit result holds every imbalance of a byte (41_helpers.md R70). -/
theorem toInt_imbalance (x : Byte) : (BitVec.ofInt 5 (byteImbalance x)).toInt = byteImbalance x :=
  toInt_ofInt_of_legal (byteImbalance_range x)

/-- Settles O45: a command without a fault did its own work, and each result fits the width of its output. -/
theorem resultOutputs : Obligations.ResultOutputs := by
  intro s t i hs h
  refine ⟨execNext_out_of_fault (exec_next h), fun hf => ?_⟩
  cases i with
  | encCtl c d =>
    obtain rfl := checked_next_of_fault_none h hf
    rfl
  | encDat d c =>
    obtain rfl := checked_next_of_fault_none h hf
    rfl
  | popcnt x =>
    obtain rfl := checked_next_of_fault_none h hf
    have hn := toNat_count (byteOf x)
    exact ⟨_, rfl, hn, hn.trans_le (popcount_le _)⟩
  | byteimb x =>
    obtain rfl := checked_next_of_fault_none h hf
    have hb := toInt_imbalance (byteOf x)
    obtain ⟨_, hlow, hhigh⟩ := byteImbalance_range (byteOf x)
    exact ⟨_, rfl, hb, hb.symm ▸ hlow, hb.symm ▸ hhigh⟩
  | rddisp =>
    change checked none s (drive (.disparity s.rd) s) = .next t at h
    obtain rfl := checked_next_of_fault_none h hf
    obtain ⟨⟨_, hlow, hhigh⟩, _⟩ := hs
    exact ⟨rfl, hlow, hhigh⟩
  | rdlast => exact exec_rdlast_out h hf
  | init =>
    obtain rfl := execNext_init (exec_next h)
    rfl

end Sys2Proof.Machine
end

section
/-! SUPPORT. Stage 1 (40_encode.md R52 to R54): its equations determine `q_m`, and the closed forms meet the same equations. -/

namespace Sys2Proof.Machine

variable {d : Byte} {q : Qm}

/-- Chain selection, by the population count and the seed bit (40_encode.md R52). -/
theorem useXnor_iff (d : Byte) : useXnor d = true ↔ popcount d > 4 ∨ (popcount d = 4 ∧ d.getLsbD 0 = false) := by
  simp [useXnor]

/-- The seed bit of `q_m` (40_encode.md R53). -/
theorem minimize_seed (d : Byte) : (minimize d).getLsbD 0 = d.getLsbD 0 := minimize_low d (by decide)

/-- The chain's equation, on the bits of `q_m` themselves (40_encode.md R53). -/
theorem minimize_chain (d : Byte) {k : Nat} (h1 : 1 ≤ k) (h7 : k ≤ 7) :
    (minimize d).getLsbD k =
      if useXnor d then !(Bool.xor ((minimize d).getLsbD (k - 1)) (d.getLsbD k))
      else Bool.xor ((minimize d).getLsbD (k - 1)) (d.getLsbD k) := by
  rw [minimize_low d h7, minimize_low d (by omega)]
  exact chainBit_step _ d h1

/-- The equations of stage 1 have one solution (40_encode.md R53). -/
theorem eq_minimize (hseed : q.getLsbD 0 = d.getLsbD 0)
    (hchain : ∀ k : Nat, 1 ≤ k → k ≤ 7 →
      q.getLsbD k = if useXnor d then !(Bool.xor (q.getLsbD (k - 1)) (d.getLsbD k))
        else Bool.xor (q.getLsbD (k - 1)) (d.getLsbD k))
    (hflag : q.getLsbD 8 = !useXnor d) : q = minimize d := by
  have hlow : ∀ k ≤ 7, q.getLsbD k = (minimize d).getLsbD k := by
    intro k
    induction k with
    | zero =>
      intro _
      rw [hseed, minimize_seed]
    | succ k ih =>
      intro hk
      rw [hchain (k + 1) (by omega) hk, minimize_chain d (by omega) hk, Nat.add_sub_cancel, ih (by omega)]
  apply BitVec.eq_of_getLsbD_eq
  intro k hk
  obtain rfl | hk7 : k = 8 ∨ k ≤ 7 := by omega
  · rw [hflag, minimize_flag]
  · exact hlow k hk7

/-- Complementing a byte exchanges its ones and zeros. -/
theorem popcount_not (d : Byte) : popcount (~~~d) + popcount d = 8 :=
  onesBelow_flip fun k hk => by simp [hk]

/-- The complement of a data value selects the other chain. -/
theorem useXnor_not (d : Byte) : useXnor (~~~d) = !useXnor d := by
  have hcount := popcount_not d
  have hseed : (~~~d).getLsbD 0 = !d.getLsbD 0 := by simp
  rw [Bool.eq_iff_iff, Bool.not_eq_true', ← Bool.not_eq_true, useXnor_iff, useXnor_iff, hseed]
  cases d.getLsbD 0 <;> simp <;> omega

theorem ofNat_reflect {n : Nat} (h : n < 256) : BitVec.ofNat 8 (255 - n) = ~~~BitVec.ofNat 8 n := by
  bv_omega

/-- Counting from the other end of a range counts the same. -/
theorem countP_range_reflect (p : Nat → Bool) (n : Nat) :
    (List.range (n + 1)).countP (fun i => p (n - i)) = (List.range (n + 1)).countP p := by
  have hreverse : (List.range (n + 1)).reverse = (List.range (n + 1)).map (n - ·) := by
    simp [List.range_eq_range', List.reverse_range']
  rw [← List.countP_reverse (l := List.range (n + 1)) (p := p), hreverse, List.countP_map]
  rfl

/-- Settles O18: the selection is the rule's own condition, and since the complement `255 - n` of `n` selects the other chain,
each chain has half of the 256 values. -/
theorem chainSelection : Obligations.ChainSelection := by
  refine ⟨fun d => ⟨useXnor_iff d, minimize_flag d⟩, ?count⟩
  case count =>
    have hflip : (List.range 256).countP (fun n => useXnor (BitVec.ofNat 8 (255 - n))) =
        (List.range 256).countP (fun n => useXnor (BitVec.ofNat 8 n)) :=
      countP_range_reflect (fun n => useXnor (BitVec.ofNat 8 n)) 255
    have hother : (List.range 256).countP (fun n => useXnor (BitVec.ofNat 8 (255 - n))) =
        (List.range 256).countP (fun n => ¬useXnor (BitVec.ofNat 8 n)) :=
      List.countP_congr fun n hn => by simp [ofNat_reflect (List.mem_range.1 hn), useXnor_not]
    have htotal := List.length_eq_countP_add_countP (fun n => useXnor (BitVec.ofNat 8 n)) (l := List.range 256)
    rw [← List.countP_eq_length_filter]
    rw [List.length_range] at htotal
    omega

/-- Settles O19: the equations of the chain and of the flag. -/
theorem chainBits : Obligations.ChainBits := by
  intro d
  refine ⟨minimize_seed d, fun k => minimize_chain d, ?flag⟩
  case flag =>
    rw [minimize_flag]
    cases useXnor d <;> rfl

/-- Bit `k` of a byte written as the list of its bits. -/
theorem getLsbD_ofBoolListLE_map (f : Nat → Bool) {k : Nat} (h : k ≤ 7) :
    (BitVec.ofBoolListLE [f 0, f 1, f 2, f 3, f 4, f 5, f 6, f 7]).getLsbD k = f k := by
  rw [BitVec.getLsbD_ofBoolListLE]
  obtain rfl | rfl | rfl | rfl | rfl | rfl | rfl | rfl :
      k = 0 ∨ k = 1 ∨ k = 2 ∨ k = 3 ∨ k = 4 ∨ k = 5 ∨ k = 6 ∨ k = 7 := by omega
  all_goals rfl

theorem chainByte_getLsbD (xnor : Bool) (d : Byte) {k : Nat} (h : k ≤ 7) :
    (chainByte xnor d).getLsbD k = chainBit xnor d k :=
  getLsbD_ofBoolListLE_map (chainBit xnor d) h

theorem parityByte_getLsbD (d : Byte) {k : Nat} (h : k ≤ 7) : (parityByte d).getLsbD k = parityUpTo d k :=
  getLsbD_ofBoolListLE_map (parityUpTo d) h

/-- A running parity is the XOR of the bits it covers. -/
theorem parityUpTo_eq_foldl (d : Byte) (k : Nat) :
    parityUpTo d k = ((List.range (k + 1)).map fun j => d.getLsbD j).foldl Bool.xor false := by
  induction k with
  | zero => simp [parityUpTo, List.range_succ]
  | succ k ih => rw [parityUpTo, ih, List.range_succ (n := k + 1), List.map_append, List.foldl_append]; rfl

/-- The XOR chain is the running parities (40_encode.md R54). -/
theorem chainBit_xor (d : Byte) (k : Nat) : chainBit false d k = parityUpTo d k := by
  induction k with
  | zero => rfl
  | succ k ih => simp [chainBit, parityUpTo, ih]

/-- The XNOR chain inverts the odd bits of the XOR chain: each XNOR step adds one inversion (40_encode.md R54). -/
theorem chainBit_xnor (d : Byte) (k : Nat) :
    chainBit true d k = Bool.xor (chainBit false d k) (decide (k % 2 = 1)) := by
  induction k with
  | zero => simp [chainBit]
  | succ k ih =>
    have hparity : decide ((k + 1) % 2 = 1) = !decide (k % 2 = 1) := by
      rw [← decide_not, decide_eq_decide]
      omega
    simp only [chainBit, ih, hparity, if_true, Bool.false_eq_true, if_false]
    cases chainBit false d k <;> cases d.getLsbD (k + 1) <;> simp

theorem chainByte_xor (d : Byte) : chainByte false d = parityByte d := by
  apply BitVec.eq_of_getLsbD_eq
  intro k hk
  rw [chainByte_getLsbD false d (by omega), parityByte_getLsbD d (by omega), chainBit_xor]

theorem chainByte_xnor (d : Byte) : chainByte true d = chainByte false d ^^^ 0xAA#8 := by
  have hmask : ∀ k < 8, (0xAA#8).getLsbD k = decide (k % 2 = 1) := by decide
  apply BitVec.eq_of_getLsbD_eq
  intro k hk
  rw [BitVec.getLsbD_xor, chainByte_getLsbD true d (by omega), chainByte_getLsbD false d (by omega), hmask k hk,
    chainBit_xnor]

/-- The circuit of the closed forms gives `q_m`, on either chain. -/
theorem minimizeClosed_eq (d : Byte) : minimizeClosed d = minimize d := by
  unfold minimizeClosed minimize flagBit
  cases useXnor d with
  | true => simp [chainByte_xnor, chainByte_xor]
  | false => simp [chainByte_xor]

/-- Settles O20: both chains from the running parities, and the circuit from the chains. -/
theorem closedFormsOfStageOne : Obligations.ClosedFormsOfStageOne := by
  intro d
  refine ⟨minimizeClosed_eq d, ?parity, chainByte_xor d, chainByte_xnor d⟩
  case parity =>
    intro k hk
    rw [parityByte_getLsbD d hk, parityUpTo_eq_foldl]

end Sys2Proof.Machine
end

section
/-! SUPPORT. The two paths of ENC as whole next states: the input contract (40_encode.md R45, R46), ENC.CTL (R50), and ENC.DAT (R51) arm by arm (R56 to R60). -/

namespace Sys2Proof.Machine

variable {s t : State} {c d : Nat} {q : Qm} {rd : Int}

/-- With `data` in range the two checks depend on `control` alone. -/
theorem encFault_congr_data {d' : Nat} (c : Nat) (h : d ≤ 255) (h' : d' ≤ 255) : encFault d c = encFault d' c := by
  simp [encFault, Config.maxData, Nat.not_lt.2 h, Nat.not_lt.2 h']

/-- With `control` in range the two checks depend on `data` alone. -/
theorem encFault_congr_control {c' : Nat} (d : Nat) (h : c ≤ 3) (h' : c' ≤ 3) : encFault d c = encFault d c' := by
  simp [encFault, Config.maxControl, Nat.not_lt.2 h, Nat.not_lt.2 h']

/-- Settles O31: the ignored input reaches a path only through the checks. -/
theorem ignoredInputs : Obligations.IgnoredInputs := by
  refine ⟨?control, ?data⟩
  case control =>
    intro s c d d' h h'
    simp only [exec, execEncCtl, encFault_congr_data c h h']
  case data =>
    intro s d c c' h h'
    simp only [exec, execEncDat, encFault_congr_control d h h']

/-- A fault of the checks is what either path of ENC records on a live instance. -/
theorem exec_enc_fault {r : FaultRecord} (hl : s.live = true) (h : encFault d c = some r) :
    exec (.encCtl c d) s = .next (recordFault r s) ∧ exec (.encDat d c) s = .next (recordFault r s) := by
  simp [exec, execEncCtl, execEncDat, h, hl]

/-- The ENC inputs of a well-formed command are in range. -/
theorem inputs_in_range_of_wf {i : Instr} (h : i.wf = true) :
    (∀ d, dataInput i = some d → d ≤ 255) ∧ (∀ c, controlInput i = some c → c ≤ 3) := by
  cases i with
  | encCtl c d =>
    obtain ⟨hd, hc⟩ := (wf_encCtl c d).1 h
    simp [dataInput, controlInput, hd, hc]
  | encDat d c =>
    obtain ⟨hd, hc⟩ := (wf_encDat d c).1 h
    simp [dataInput, controlInput, hd, hc]
  | _ => simp [dataInput, controlInput]

/-- Settles O32: both paths record the first fault of the checks, and a word decodes to a well-formed command. -/
theorem inputContract : Obligations.InputContract := by
  refine ⟨?data, ?control, ?words⟩
  case data =>
    intro s c d hl hd
    exact exec_enc_fault hl (encFault_data hd)
  case control =>
    intro s c d hl hd hc
    exact exec_enc_fault hl (encFault_control hd hc)
  case words =>
    intro w i h
    exact inputs_in_range_of_wf (wf_encode_of_decode h).1

/-- The four bits 13:10 of a command word are `OP` and `DE`. -/
theorem opField_deField_of_top {w : CmdWord} {x : BitVec 4} (h : w.extractLsb' 10 4 = x) :
    opField w = x.extractLsb' 1 3 ∧ deField w = x.extractLsb' 0 1 := by
  subst h
  constructor
  · apply BitVec.eq_of_getLsbD_eq
    intro k hk
    simp [opField, hk, show 1 + k < 4 by omega, show 10 + (1 + k) = 11 + k by omega]
  · apply BitVec.eq_of_getLsbD_eq
    intro k hk
    simp [deField, hk, show k < 4 by omega]

/-- ENC.CTL that left no fault wrote a state that it writes again (40_encode.md R50). -/
theorem exec_encCtl_repeat (h : exec (.encCtl c d) s = .next t) (hf : t.fault = none) :
    exec (.encCtl c d) t = .next t := by
  obtain ⟨hl, ⟨r, _, rfl⟩ | ⟨hnone, rfl⟩⟩ := checked_next h
  · cases hf
  · obtain ⟨hd, hc⟩ := encFault_eq_none.1 hnone
    exact exec_encCtl_live hl hd hc

/-- Settles O15: the word's fields, the checks in order, the emitted symbol, and the repetition. -/
theorem controlPathResult : Obligations.ControlPathResult := by
  refine ⟨?word, ?result, ⟨rfl, rfl, rfl, rfl⟩, ?again⟩
  case word =>
    intro w hw
    obtain ⟨hop, hde⟩ := opField_deField_of_top hw
    exact decode_encCtl hop hde
  case result =>
    intro s c d hl
    split
    case isTrue hd => exact (exec_enc_fault hl (encFault_data hd)).1
    case isFalse hd =>
      split
      case isTrue hc => exact (exec_enc_fault hl (encFault_control (by omega) hc)).1
      case isFalse hc => exact exec_encCtl_live hl (by omega) (by omega)
  case again =>
    intro s t c d h hf
    exact exec_encCtl_repeat h hf

theorem lowByte_eq_extractLsb' (q : Qm) : lowByte q = q.extractLsb' 0 8 :=
  BitVec.setWidth_eq_extractLsb' (by decide)

/-- Stage 2 written out: the three arms in their order (40_encode.md R51, R56 to R59). -/
theorem balance_eq (rd : Int) (q : Qm) :
    (balanceSymbol rd q, balanceDisparity rd q) =
      (if rd = 0 ∨ imbalanceOf q = 0 then
        (if flagOf q = 1 then (plainSymbol q, rd + imbalanceOf q) else (invertedSymbol q, rd - imbalanceOf q))
      else if (rd > 0 ∧ imbalanceOf q > 0) ∨ (rd < 0 ∧ imbalanceOf q < 0) then
        (invertedSymbol q, rd + 2 * flagOf q - imbalanceOf q)
      else (plainSymbol q, rd + imbalanceOf q - 2 * (1 - flagOf q))) := by
  rcases balance_cases rd q with ⟨ha, ⟨hf, hy, hv⟩ | ⟨hf, hy, hv⟩⟩ | ⟨ha, hb, hy, hv⟩ | ⟨ha, hb, hy, hv⟩
  · rw [if_pos ha, if_pos hf, hy, hv]
  · rw [if_pos ha, if_neg (by omega), hy, hv]
  · rw [if_neg ha, if_pos hb, hy, hv]
  · rw [if_neg ha, if_neg hb, hy, hv]

/-- Settles O17: the given code meets the equations of stage 1, so it is `q_m`, and the pseudocode on it is stage 2. -/
theorem dataPathResult : Obligations.DataPathResult := by
  refine ⟨?word, ?data, ?control, ?result⟩
  case word =>
    intro w hw
    obtain ⟨hop, hde⟩ := opField_deField_of_top hw
    exact decode_encDat hop hde
  case data =>
    intro s c d hl hd
    exact (exec_enc_fault hl (encFault_data hd)).2
  case control =>
    intro s c d hl hd hc
    exact (exec_enc_fault hl (encFault_control hd hc)).2
  case result =>
    intro s c d xnor q hl hd hc hxnor hseed hchain hflag f b y v hf hb hyv
    have hbit : ∀ k < 8, d.testBit k = (byteOf d).getLsbD k := fun k hk => by
      rw [byteOf, BitVec.getLsbD_ofNat, decide_eq_true hk, Bool.true_and]
    have hx : xnor = useXnor (byteOf d) := by
      rw [Bool.eq_iff_iff, hxnor, useXnor_iff, ← hbit 0 (by decide)]
      rfl
    subst hx
    have hq : q = minimize (byteOf d) := by
      refine eq_minimize (hseed.trans (hbit 0 (by decide))) (fun k h1 h7 => ?_) hflag
      rw [hchain k h1 h7, hbit k (by omega)]
    have hf : f = flagOf q := hf
    have hb : b = imbalanceOf q := by rw [hb, imbalanceOf, byteImbalance, lowByte_eq_extractLsb']
    subst hf hb
    have hstage : (y, v) = (balanceSymbol s.rd q, balanceDisparity s.rd q) := hyv.trans (balance_eq s.rd q).symm
    obtain ⟨rfl, rfl⟩ := Prod.mk.inj hstage
    rw [hq]
    exact exec_encDat_live hl hd hc

/-- The arm chosen determines and is determined by its condition. -/
theorem chooseArm_iff (rd b : Int) :
    (chooseArm rd b = .a ↔ rd = 0 ∨ b = 0) ∧
    (chooseArm rd b = .b ↔ ¬(rd = 0 ∨ b = 0) ∧ ((rd > 0 ∧ b > 0) ∨ (rd < 0 ∧ b < 0))) ∧
    (chooseArm rd b = .c ↔ ¬(rd = 0 ∨ b = 0) ∧ ¬((rd > 0 ∧ b > 0) ∨ (rd < 0 ∧ b < 0))) := by
  obtain ⟨harm, h⟩ | ⟨harm, h⟩ | ⟨harm, h⟩ := chooseArm_cases rd b <;> simp [harm] <;> omega

/-- Bit 8 of a data symbol is the flag, in every arm (40_encode.md R59). -/
theorem dataSymbol_flag (rd : Int) (d : Byte) : (dataSymbol rd d).getLsbD 8 = (minimize d).getLsbD 8 := by
  obtain h | h := dataSymbol_cases rd d
  · rw [h, plainSymbol_getLsbD]
  · rw [h, invertedSymbol_flag]

/-- Settles O24: arm A's condition is tested first, and both symbols keep the flag bit. -/
theorem armOrder : Obligations.ArmOrder :=
  ⟨chooseArm_iff, fun b => (chooseArm_iff 0 b).1.2 (.inl rfl), fun rd => (chooseArm_iff rd 0).1.2 (.inr rfl), dataSymbol_flag⟩

/-- Arm A on the XOR chain (40_encode.md R56). -/
theorem balance_armA_xor (ha : rd = 0 ∨ imbalanceOf q = 0) (hf : q.getLsbD 8 = true) :
    balanceSymbol rd q = plainSymbol q ∧ balanceDisparity rd q = rd + imbalanceOf q :=
  Prod.mk.inj (by rw [balance_eq, if_pos ha, flagOf, if_pos hf, if_pos rfl])

/-- Arm A on the XNOR chain (40_encode.md R56). -/
theorem balance_armA_xnor (ha : rd = 0 ∨ imbalanceOf q = 0) (hf : q.getLsbD 8 = false) :
    balanceSymbol rd q = invertedSymbol q ∧ balanceDisparity rd q = rd - imbalanceOf q :=
  Prod.mk.inj (by rw [balance_eq, if_pos ha, flagOf, hf]; rfl)

/-- Arm B (40_encode.md R57). -/
theorem balance_armB (ha : ¬(rd = 0 ∨ imbalanceOf q = 0))
    (hb : (rd > 0 ∧ imbalanceOf q > 0) ∨ (rd < 0 ∧ imbalanceOf q < 0)) :
    balanceSymbol rd q = invertedSymbol q ∧ balanceDisparity rd q = rd + 2 * flagOf q - imbalanceOf q :=
  Prod.mk.inj (by rw [balance_eq, if_neg ha, if_pos hb])

/-- Arm C (40_encode.md R58). -/
theorem balance_armC (ha : ¬(rd = 0 ∨ imbalanceOf q = 0))
    (hb : ¬((rd > 0 ∧ imbalanceOf q > 0) ∨ (rd < 0 ∧ imbalanceOf q < 0))) :
    balanceSymbol rd q = plainSymbol q ∧ balanceDisparity rd q = rd + imbalanceOf q - 2 * (1 - flagOf q) :=
  Prod.mk.inj (by rw [balance_eq, if_neg ha, if_neg hb])

/-- ENC.DAT in range writes what stage 2 makes of `q_m`. -/
theorem exec_encDat_of_balance {y : Symbol} {v : Int} (hl : s.live = true) (hd : d ≤ 255) (hc : c ≤ 3)
    (hq : q = minimize (BitVec.ofNat 8 d)) (h : balanceSymbol s.rd q = y ∧ balanceDisparity s.rd q = v) :
    exec (.encDat d c) s = .next (emitSymbol y v .active s) := by
  obtain ⟨rfl, rfl⟩ := h
  subst hq
  exact exec_encDat_live hl hd hc

/-- Settles O21: the two lines of arm A, by the flag. -/
theorem armARule : Obligations.ArmARule := by
  intro s c d q hl hd hc hq ha
  cases hf : q.getLsbD 8 with
  | true =>
    refine ⟨_, _, exec_encDat_of_balance hl hd hc hq (balance_armA_xor ha hf), rfl, rfl, ?xor, nofun, plainSymbol_top q⟩
    case xor => exact fun _ => ⟨rfl, rfl⟩
  | false =>
    refine ⟨_, _, exec_encDat_of_balance hl hd hc hq (balance_armA_xnor ha hf), rfl, rfl, nofun, ?xnor, invertedSymbol_top q⟩
    case xnor => exact fun _ => ⟨rfl, (invertedSymbol_flag q).trans hf, invertedSymbol_payload q, rfl⟩

/-- Settles O22: RD and b being non-zero, "both positive or both negative" says that they share a sign. -/
theorem armBRule : Obligations.ArmBRule := by
  intro s c d q hl hd hc hq hrd hb
  have hsigns : (s.rd > 0 ∧ imbalanceOf q > 0) ∨ (s.rd < 0 ∧ imbalanceOf q < 0) ↔ (s.rd > 0 ↔ imbalanceOf q > 0) := by omega
  refine ⟨hsigns, fun hsign => ?_⟩
  have harm := balance_armB (not_or.2 ⟨hrd, hb⟩) (hsigns.2 hsign)
  exact ⟨_, _, exec_encDat_of_balance hl hd hc hq harm, rfl, rfl, rfl, invertedSymbol_top q, invertedSymbol_flag q,
    invertedSymbol_payload q, rfl⟩

/-- Settles O23: RD and b being non-zero with different signs, neither pair of signs of arm B holds. -/
theorem armCRule : Obligations.ArmCRule := by
  intro s c d q hl hd hc hq hrd hb hsign
  have harm := balance_armC (rd := s.rd) (q := q) (not_or.2 ⟨hrd, hb⟩) (by omega)
  exact ⟨_, _, exec_encDat_of_balance hl hd hc hq harm, rfl, rfl, rfl, plainSymbol_top q, plainSymbol_getLsbD q 8,
    plainSymbol_payload q, rfl⟩

/-- Settles O27: the emitted symbol's disparity is the change, and a symbol has 0 to 10 ones. -/
theorem disparityChangeIsSymbolDisparity : Obligations.DisparityChangeIsSymbolDisparity := by
  intro s c d hl hd hc
  have hchange := symbolDisparity_balanceSymbol s.rd (minimize (byteOf d))
  have hones := onesBelow_le (dataSymbol s.rd (byteOf d)) 10
  refine ⟨_, _, exec_encDat_live hl hd hc, rfl, ?_⟩
  simp only [symbolDisparity, emitSymbol_rd, dataSymbol, dataDisparity] at hchange hones ⊢
  omega

end Sys2Proof.Machine
end

section
/-! SUPPORT. Unique decoding (40_encode.md R62): a left inverse of the encoder on symbols, and the symbols of each data value. -/

namespace Sys2Proof.Machine

variable {d : Byte} {y : Symbol}

/-- The code a data symbol was made from: bit 9 says whether it was XORed with `INV_MASK` (30_encoding.md R40). -/
def codeOfSymbol (y : Symbol) : Qm := (if y.getLsbD 9 then y ^^^ invMask else y).setWidth 9

/-- The data value a code was made from: stage 1 run backwards, each bit from the code's bit and the one below it, by the chain
the flag names. -/
def byteOfCode (q : Qm) : Byte := lowByte q ^^^ lowByte q <<< 1 ^^^ (if q.getLsbD 8 then 0x00#8 else 0xFE#8)

/-- The data value of a data symbol. -/
def byteOfSymbol (y : Symbol) : Byte := byteOfCode (codeOfSymbol y)

theorem codeOfSymbol_plain (q : Qm) : codeOfSymbol (plainSymbol q) = q := by
  rw [codeOfSymbol, plainSymbol_top, if_neg (by decide), plainSymbol, BitVec.setWidth_setWidth_of_le _ (by decide),
    BitVec.setWidth_eq]

theorem codeOfSymbol_inverted (q : Qm) : codeOfSymbol (invertedSymbol q) = q := by
  rw [codeOfSymbol, invertedSymbol_top, if_pos rfl, invertedSymbol, BitVec.xor_assoc, BitVec.xor_self, BitVec.xor_zero,
    plainSymbol, BitVec.setWidth_setWidth_of_le _ (by decide), BitVec.setWidth_eq]

theorem byteOfCode_minimize (d : Byte) : byteOfCode (minimize d) = d := by
  have hmask : ∀ k < 8, (0xFE#8).getLsbD k = decide (1 ≤ k) := by decide
  apply BitVec.eq_of_getLsbD_eq
  intro k hk
  simp only [byteOfCode, lowByte, BitVec.getLsbD_xor, BitVec.getLsbD_shiftLeft, BitVec.getLsbD_setWidth, minimize_flag, hk]
  obtain rfl | h1 : k = 0 ∨ 1 ≤ k := by omega
  · rw [minimize_seed]
    cases useXnor d <;> simp
  · rw [minimize_chain d h1 (by omega)]
    cases useXnor d <;> cases (minimize d).getLsbD (k - 1) <;>
      simp [hmask k hk, h1, show k - 1 < 8 by omega, show ¬k < 1 by omega]

/-- A code is decoded whichever way it was sent. -/
theorem byteOfSymbol_plain (d : Byte) : byteOfSymbol (plainSymbol (minimize d)) = d := by
  rw [byteOfSymbol, codeOfSymbol_plain, byteOfCode_minimize]

theorem byteOfSymbol_inverted (d : Byte) : byteOfSymbol (invertedSymbol (minimize d)) = d := by
  rw [byteOfSymbol, codeOfSymbol_inverted, byteOfCode_minimize]

/-- A data symbol is decoded without knowing the disparity. -/
theorem byteOfSymbol_dataSymbol (rd : Int) (d : Byte) : byteOfSymbol (dataSymbol rd d) = d := by
  obtain h | h := dataSymbol_cases rd d
  · rw [h, byteOfSymbol_plain]
  · rw [h, byteOfSymbol_inverted]

theorem codeOfSymbol_dataSymbol (rd : Int) (d : Byte) : codeOfSymbol (dataSymbol rd d) = minimize d := by
  obtain h | h := dataSymbol_cases rd d
  · rw [h, codeOfSymbol_plain]
  · rw [h, codeOfSymbol_inverted]

/-- A control symbol is no data symbol: the data value its code would come from is encoded on the other chain. -/
theorem dataSymbol_ne_ctrlSym (rd : Int) (d : Byte) (c : Ctrl) : dataSymbol rd d ≠ ctrlSym c := by
  intro h
  have hcontrol : ∀ c : Ctrl, minimize (byteOfSymbol (ctrlSym c)) ≠ codeOfSymbol (ctrlSym c) := by decide
  apply hcontrol c
  rw [← h, byteOfSymbol_dataSymbol, codeOfSymbol_dataSymbol]

/-- The symbols of a data value: one when its code is balanced, else the code sent either way. -/
def symbolsOf (d : Byte) : List Symbol :=
  if imbalanceOf (minimize d) = 0 then [dataSymbol 0 d] else [plainSymbol (minimize d), invertedSymbol (minimize d)]

/-- With a balanced code the disparity has no say (40_encode.md R56). -/
theorem dataSymbol_of_balanced (rd : Int) (h : imbalanceOf (minimize d) = 0) : dataSymbol rd d = dataSymbol 0 d := by
  unfold dataSymbol
  cases hf : (minimize d).getLsbD 8 with
  | true => rw [(balance_armA_xor (.inr h) hf).1, (balance_armA_xor (.inl rfl) hf).1]
  | false => rw [(balance_armA_xnor (.inr h) hf).1, (balance_armA_xnor (.inl rfl) hf).1]

/-- With an unbalanced code an `RD` of the other sign sends it unmodified, one of its own sign inverted (40_encode.md R57,
R58). -/
theorem exists_dataSymbol_of_unbalanced (h : imbalanceOf (minimize d) ≠ 0) :
    (∃ rd, legalDisparity rd ∧ plainSymbol (minimize d) = dataSymbol rd d) ∧
    (∃ rd, legalDisparity rd ∧ invertedSymbol (minimize d) = dataSymbol rd d) := by
  obtain hb | hb : imbalanceOf (minimize d) > 0 ∨ imbalanceOf (minimize d) < 0 := by omega
  · exact ⟨⟨-2, by decide, (balance_armC (by omega) (by omega)).1.symm⟩,
      ⟨2, by decide, (balance_armB (by omega) (by omega)).1.symm⟩⟩
  · exact ⟨⟨2, by decide, (balance_armC (by omega) (by omega)).1.symm⟩,
      ⟨-2, by decide, (balance_armB (by omega) (by omega)).1.symm⟩⟩

theorem mem_symbolsOf : y ∈ symbolsOf d ↔ ∃ rd, legalDisparity rd ∧ y = dataSymbol rd d := by
  unfold symbolsOf
  split
  case isTrue h =>
    rw [List.mem_singleton]
    constructor
    · exact fun hy => ⟨0, legalDisparity_zero, hy⟩
    · rintro ⟨rd, _, rfl⟩
      exact dataSymbol_of_balanced rd h
  case isFalse h =>
    rw [List.mem_pair]
    constructor
    · rintro (rfl | rfl)
      · exact (exists_dataSymbol_of_unbalanced h).1
      · exact (exists_dataSymbol_of_unbalanced h).2
    · rintro ⟨rd, _, rfl⟩
      exact dataSymbol_cases rd d

theorem symbolsOf_nodup (d : Byte) : (symbolsOf d).Nodup := by
  unfold symbolsOf
  split
  · exact List.nodup_singleton _
  · simp [plainSymbol_ne_invertedSymbol]

/-- The data symbols, data value by data value. -/
def dataSymbols : List Symbol := (List.range 256).flatMap fun n => symbolsOf (byteOf n)

theorem mem_dataSymbols : y ∈ dataSymbols ↔ ∃ (rd : Int) (d : Byte), legalDisparity rd ∧ y = dataSymbol rd d := by
  simp only [dataSymbols, List.mem_flatMap, List.mem_range, mem_symbolsOf]
  constructor
  · rintro ⟨n, _, rd, hrd, hy⟩
    exact ⟨rd, byteOf n, hrd, hy⟩
  · rintro ⟨rd, d, hrd, hy⟩
    refine ⟨d.toNat, d.isLt, rd, hrd, ?_⟩
    simpa [byteOf] using hy

/-- No symbol is listed twice: not for one data value, and not for two, since each is decoded to its own. -/
theorem dataSymbols_nodup : dataSymbols.Nodup := by
  refine List.nodup_flatMap.2 ⟨fun n _ => symbolsOf_nodup (byteOf n), ?_⟩
  refine List.nodup_range.pairwise_of_forall_ne fun n hn m hm hne y hyn hym => hne ?_
  obtain ⟨rd, _, rfl⟩ := mem_symbolsOf.1 hyn
  obtain ⟨rd', _, hy⟩ := mem_symbolsOf.1 hym
  have hbyte : byteOf n = byteOf m := by
    rw [← byteOfSymbol_dataSymbol rd (byteOf n), hy, byteOfSymbol_dataSymbol]
  have hn : n ≤ 255 := Nat.le_of_lt_succ (List.mem_range.1 hn)
  have hm : m ≤ 255 := Nat.le_of_lt_succ (List.mem_range.1 hm)
  rw [← toNat_ofNat_byte hn, ← toNat_ofNat_byte hm]
  exact congrArg BitVec.toNat hbyte

/-- Two symbols for each data value, but one for each whose code is balanced. -/
theorem length_flatMap_symbolsOf (l : List Nat) :
    (l.flatMap fun n => symbolsOf (byteOf n)).length + (l.filter fun n => imbalanceOf (minimize (byteOf n)) = 0).length =
      2 * l.length := by
  induction l with
  | nil => rfl
  | cons n l ih =>
    have hn : (symbolsOf (byteOf n)).length = if imbalanceOf (minimize (byteOf n)) = 0 then 1 else 2 := by
      unfold symbolsOf
      split <;> rfl
    rw [List.flatMap_cons, List.length_append, List.length_cons, List.filter_cons, hn]
    split <;> simp_all <;> omega

/-- 52 data values have a balanced code (41_helpers.md R71). -/
theorem balanced_code_count : ((List.range 256).filter fun n => imbalanceOf (minimize (byteOf n)) = 0).length = 52 := by
  rfl

/-- Settles O30: the left inverse gives injectivity, and `2 · 256 - 52` symbols. -/
theorem dataSymbolsDistinct : Obligations.DataSymbolsDistinct := by
  refine ⟨?injective, dataSymbol_ne_ctrlSym, dataSymbols, dataSymbols_nodup, ?count, fun y => mem_dataSymbols⟩
  case injective =>
    intro rd rd' d d' h
    rw [← byteOfSymbol_dataSymbol rd d, h, byteOfSymbol_dataSymbol]
  case count =>
    have hlength := length_flatMap_symbolsOf (List.range 256)
    rw [balanced_code_count, List.length_range] at hlength
    exact Nat.add_right_cancel hlength

end Sys2Proof.Machine
end

section
/-! SUPPORT. Runs of ENC commands: the self-balancing pair (40_encode.md R61), and that a stream's symbols depend on the `RD` it starts from alone (R47, R49). -/

namespace Sys2Proof.Machine

variable {s s' : State} {i : Instr}

theorem xor_one_getLsbD (d : Byte) (k : Nat) : (d ^^^ 1#8).getLsbD k = Bool.xor (d.getLsbD k) (decide (k = 0)) := by
  rw [BitVec.getLsbD_xor, BitVec.getLsbD_one]
  simp

/-- Inverting the seed moves one bit between ones and zeros (41_helpers.md R66). -/
theorem popcount_xor_one (d : Byte) : (popcount (d ^^^ 1#8) : Int) = popcount d + (if d.getLsbD 0 then -1 else 1) := by
  simp only [popcount, onesBelow, xor_one_getLsbD]
  cases d.getLsbD 0 <;> simp <;> omega

/-- The two values of a pair select one chain: where the population count crosses 4, the tie-break on the seed makes up
for it. -/
theorem useXnor_xor_one (d : Byte) : useXnor (d ^^^ 1#8) = useXnor d := by
  have hcount := popcount_xor_one d
  have hseed : (d ^^^ 1#8).getLsbD 0 = !d.getLsbD 0 := by simp
  rw [Bool.eq_iff_iff, useXnor_iff, useXnor_iff, hseed]
  cases hbit : d.getLsbD 0 with
  | true =>
    rw [hbit, if_pos rfl] at hcount
    simp
    omega
  | false =>
    rw [hbit, if_neg (by decide)] at hcount
    simp
    omega

/-- An inverted seed inverts the whole chain. -/
theorem chainBit_xor_one (xnor : Bool) (d : Byte) (k : Nat) : chainBit xnor (d ^^^ 1#8) k = !chainBit xnor d k := by
  induction k with
  | zero => simp [chainBit]
  | succ k ih => cases xnor <;> simp [chainBit, ih]

/-- The codes of a pair have one flag. -/
theorem flagOf_xor_one (d : Byte) : flagOf (minimize (d ^^^ 1#8)) = flagOf (minimize d) := by
  simp only [flagOf, minimize_flag, useXnor_xor_one]

/-- The codes of a pair have opposite imbalances. -/
theorem imbalanceOf_xor_one (d : Byte) : imbalanceOf (minimize (d ^^^ 1#8)) = -imbalanceOf (minimize d) := by
  have hflip : onesBelow (minimize (d ^^^ 1#8)) 8 + onesBelow (minimize d) 8 = 8 := onesBelow_flip fun k hk => by
    rw [minimize_low _ (by omega), minimize_low _ (by omega), useXnor_xor_one, chainBit_xor_one]
  rw [← onesBelow_code, ← onesBelow_code]
  omega

/-- A pair returns `RD` to 0: the first symbol leaves the imbalance, signed by the flag, and the second, of the same flag and
the opposite imbalance, takes it back (40_encode.md R61). -/
theorem dataDisparity_pair (d : Byte) : dataDisparity (dataDisparity 0 d) (d ^^^ 1#8) = 0 := by
  have hflag := flagOf_xor_one d
  have himbalance := imbalanceOf_xor_one d
  have hfirst := balance_cases 0 (minimize d)
  have hsecond := balance_cases (dataDisparity 0 d) (minimize (d ^^^ 1#8))
  unfold dataDisparity at hsecond ⊢
  omega

theorem byteOf_xor_one (n : Nat) : byteOf (n ^^^ 1) = byteOf n ^^^ 1#8 := by
  apply BitVec.eq_of_toNat_eq
  simp [byteOf]

/-- Settles O29: a pair returns `RD` to 0; from +2 the two symbols are DAT-29's. -/
theorem selfBalancingPair : Obligations.SelfBalancingPair := by
  refine ⟨?fromZero, ?fromTwo⟩
  case fromZero =>
    intro s d hl hrd hd
    have hd' : d ^^^ 1 ≤ 255 := Nat.le_of_lt_succ (Nat.xor_lt_two_pow (n := 8) (by omega) (by decide))
    refine ⟨_, _, exec_encDat_live hl hd (by decide), exec_encDat_live hl hd' (by decide), ?_⟩
    simp only [emitSymbol_rd, hrd, byteOf_xor_one, dataDisparity_pair]
  case fromTwo =>
    intro s hl hrd
    have hfirst := exec_encDat_live (d := 0x04) (c := 0) hl (by decide) (by decide)
    rw [hrd] at hfirst
    exact ⟨_, _, hfirst, rfl, rfl, exec_encDat_live hl (by decide) (by decide), rfl, rfl⟩

/-- Two live instances of one `RD`, whatever their LS, LSV, MODE and out. -/
structure AgreeOnRd (s s' : State) : Prop where
  live : s.live = true
  live' : s'.live = true
  rd : s.rd = s'.rd

/-- On two live instances of one `RD`, a well-formed ENC emits one symbol and leaves one `RD` (40_encode.md R47, R49). -/
theorem exec_enc_agree (h : AgreeOnRd s s') (hwf : i.wf = true)
    (henc : (∃ c d, i = .encCtl c d) ∨ ∃ d c, i = .encDat d c) :
    ∃ t t', exec i s = .next t ∧ exec i s' = .next t' ∧ emittedSymbol i t = emittedSymbol i t' ∧ AgreeOnRd t t' := by
  obtain ⟨hl, hl', hrd⟩ := h
  obtain ⟨c, d, rfl⟩ | ⟨d, c, rfl⟩ := henc
  · obtain ⟨hd, hc⟩ := (wf_encCtl c d).1 hwf
    exact ⟨_, _, exec_encCtl_live hl hd hc, exec_encCtl_live hl' hd hc, rfl, hl, hl', rfl⟩
  · obtain ⟨hd, hc⟩ := (wf_encDat d c).1 hwf
    refine ⟨_, _, exec_encDat_live hl hd hc, exec_encDat_live hl' hd hc, ?_⟩
    rw [hrd]
    exact ⟨rfl, hl, hl', rfl⟩

/-- Two live instances of one `RD` run a well-formed ENC stream alike, by induction on the stream. -/
theorem runOps_enc_agree (ops : List Instr) (h : AgreeOnRd s s')
    (henc : ∀ i ∈ ops, i.wf = true ∧ ((∃ c d, i = .encCtl c d) ∨ ∃ d c, i = .encDat d c)) :
    emittedSymbols ops s = emittedSymbols ops s' ∧
      ∃ t t', runOps ops s = .next t ∧ runOps ops s' = .next t' ∧ AgreeOnRd t t' := by
  induction ops generalizing s s' with
  | nil => exact ⟨rfl, s, s', rfl, rfl, h⟩
  | cons i rest ih =>
    obtain ⟨hwf, hi⟩ := henc i List.mem_cons_self
    obtain ⟨u, u', hu, hu', hsymbol, hagree⟩ := exec_enc_agree h hwf hi
    obtain ⟨hsymbols, hruns⟩ := ih hagree fun j hj => henc j (List.mem_cons_of_mem i hj)
    simpa only [emittedSymbols, runOps, hu, hu', hsymbol, hsymbols, true_and] using hruns

/-- Settles O33: the stream's simulation, and for ENC.CTL the emitted state itself. -/
theorem encodeReadsOnlyDisparity : Obligations.EncodeReadsOnlyDisparity := by
  refine ⟨?stream, ?control⟩
  case stream =>
    intro ops s s' t hl hl' hrd henc hrun
    obtain ⟨hsymbols, u, u', hu, hu', hagree⟩ := runOps_enc_agree ops ⟨hl, hl', hrd⟩ henc
    cases hu.symm.trans hrun
    exact ⟨hsymbols, u', hu', hagree.rd.symm⟩
  case control =>
    intro s s' c d hl hl' hc hd
    exact ⟨_, _, exec_encCtl_live hl hd hc, exec_encCtl_live hl' hd hc, rfl, rfl, rfl⟩

end Sys2Proof.Machine
end

section
/-! SUPPORT. The laws of the two helper functions (41_helpers.md R65, R66, R68, R69, R71): how many bytes have a given population count, and what the complement does. -/

namespace Sys2Proof.Machine

/-- The count of the low `n` bits is their sum (41_helpers.md R65). -/
theorem onesBelow_eq_sum {w : Nat} (x : BitVec w) (n : Nat) :
    onesBelow x n = ((List.range n).map fun k => (x.getLsbD k).toNat).sum := by
  induction n with
  | zero => rfl
  | succ n ih => simp [onesBelow, ih, List.range_succ]

/-- Settles O36: the count is the sum of the bits; the complement exchanges ones and zeros, and an inverted seed moves one
bit between them. -/
theorem popcountLaws : Obligations.PopcountLaws := by
  refine ⟨fun x => ⟨onesBelow_eq_sum x 8, popcount_le x⟩, by decide, by decide, ?complement, popcount_xor_one⟩
  case complement =>
    intro x
    have hcount := popcount_not x
    omega

/-- Below `2 ^ n` bit `n` is clear. -/
theorem onesBelow_ofNat_succ_of_lt {w n i : Nat} (hi : i < 2 ^ n) :
    onesBelow (BitVec.ofNat w i) (n + 1) = onesBelow (BitVec.ofNat w i) n := by
  rw [onesBelow, BitVec.getLsbD_ofNat, Nat.testBit_lt_two_pow hi, Bool.and_false, Bool.toNat_false, Nat.add_zero]

/-- Adding `2 ^ n` to a number below it sets bit `n` and keeps the bits under it. -/
theorem onesBelow_ofNat_succ_two_pow_add {w n i : Nat} (hn : n < w) (hi : i < 2 ^ n) :
    onesBelow (BitVec.ofNat w (2 ^ n + i)) (n + 1) = onesBelow (BitVec.ofNat w i) n + 1 := by
  have hlow : onesBelow (BitVec.ofNat w (2 ^ n + i)) n = onesBelow (BitVec.ofNat w i) n := onesBelow_congr fun k hk => by
    rw [BitVec.getLsbD_ofNat, BitVec.getLsbD_ofNat, Nat.testBit_two_pow_add_gt hk]
  have htop : (BitVec.ofNat w (2 ^ n + i)).getLsbD n = true := by
    rw [BitVec.getLsbD_ofNat, Nat.testBit_two_pow_add_eq, Nat.testBit_lt_two_pow hi, decide_eq_true hn]
    rfl
  rw [onesBelow, hlow, htop, Bool.toNat_true]

/-- `n` bits have `k` ones in `n` choose `k` ways, by Pascal's rule on the top bit. -/
theorem countP_onesBelow {w n : Nat} (hn : n ≤ w) (k : Nat) :
    (List.range (2 ^ n)).countP (fun i => onesBelow (BitVec.ofNat w i) n = k) = n.choose k := by
  induction n generalizing k with
  | zero => cases k <;> rfl
  | succ n ih =>
    have hclear : (List.range (2 ^ n)).countP (fun i => onesBelow (BitVec.ofNat w i) (n + 1) = k) = n.choose k := by
      rw [← ih (Nat.le_of_succ_le hn) k]
      exact List.countP_congr fun i hi => by rw [onesBelow_ofNat_succ_of_lt (List.mem_range.1 hi)]
    have hset : (List.range (2 ^ n)).countP (fun i => onesBelow (BitVec.ofNat w (2 ^ n + i)) (n + 1) = k) =
        (List.range (2 ^ n)).countP (fun i => onesBelow (BitVec.ofNat w i) n + 1 = k) :=
      List.countP_congr fun i hi => by rw [onesBelow_ofNat_succ_two_pow_add hn (List.mem_range.1 hi)]
    rw [Nat.pow_succ, Nat.mul_two, List.range_add, List.countP_append, List.countP_map]
    refine (congrArg₂ (· + ·) hclear hset).trans ?_
    cases k with
    | zero => simp
    | succ k =>
      simp only [Nat.add_right_cancel_iff, ih (Nat.le_of_succ_le hn)]
      rw [Nat.choose_succ_succ', Nat.add_comm]

/-- 8 choose `k` bytes have `k` ones. -/
theorem countP_popcount (k : Nat) : (List.range 256).countP (fun n => popcount (BitVec.ofNat 8 n) = k) = Nat.choose 8 k :=
  countP_onesBelow (n := 8) (Nat.le_refl 8) k

/-- Every count from 0 to 8 is some byte's. -/
theorem exists_popcount_eq {k : Nat} (h : k ≤ 8) : ∃ x : Byte, popcount x = k := by
  have hpos : 0 < (List.range 256).countP (fun n => popcount (BitVec.ofNat 8 n) = k) := by
    rw [countP_popcount]
    exact Nat.choose_pos h
  obtain ⟨n, _, hn⟩ := List.countP_pos_iff.1 hpos
  exact ⟨_, of_decide_eq_true hn⟩

/-- Every even value from -8 to +8 is some byte's imbalance (41_helpers.md R71). -/
theorem exists_byteImbalance_eq {v : Int} (h : legalDisparity v) : ∃ x : Byte, byteImbalance x = v := by
  obtain ⟨heven, hlow, hhigh⟩ := h
  obtain ⟨x, hx⟩ := exists_popcount_eq (k := ((v + 8) / 2).toNat) (by omega)
  refine ⟨x, ?_⟩
  simp only [byteImbalance]
  omega

/-- The imbalance is the ones minus the zeros (41_helpers.md R69). -/
theorem byteImbalance_eq_ones_sub_zeros (x : Byte) : byteImbalance x = (popcount x : Int) - (popcount (~~~x) : Int) := by
  have hcount := popcount_not x
  simp only [byteImbalance]
  omega

theorem byteImbalance_not (x : Byte) : byteImbalance (~~~x) = -byteImbalance x := by
  rw [byteImbalance_eq_ones_sub_zeros, byteImbalance_eq_ones_sub_zeros, BitVec.not_not, Int.neg_sub]

theorem byteImbalance_eq_zero_iff (x : Byte) : byteImbalance x = 0 ↔ popcount x = 4 := by
  simp only [byteImbalance]
  omega

/-- Settles O37: the laws follow from the count of the ones and the zeros together, and 8 choose 4 is 70. -/
theorem imbalanceLaws : Obligations.ImbalanceLaws := by
  refine ⟨fun x => ⟨rfl, byteImbalance_eq_ones_sub_zeros x⟩, byteImbalance_range, fun _ => exists_byteImbalance_eq,
    byteImbalance_not, byteImbalance_eq_zero_iff, ?balanced, balanced_code_count⟩
  case balanced =>
    rw [← List.countP_eq_length_filter]
    exact countP_popcount 4

end Sys2Proof.Machine
end

section
/-! SUPPORT. POPCNT and BYTEIMB as commands (41_helpers.md R67, R70): their words, the reserved ones among them, and the range check. -/

namespace Sys2Proof.Machine

variable {s : State} {w : CmdWord} {x : Nat}

/-- A field of a field, where it lies in the whole vector. -/
theorem extractLsb'_extractLsb'_of_fits {v i j m n : Nat} (y : BitVec v) (h : j + m ≤ n) :
    (y.extractLsb' i n).extractLsb' j m = y.extractLsb' (i + j) m := by
  apply BitVec.eq_of_getLsbD_eq
  intro k hk
  simp [hk, show j + k < n by omega, Nat.add_assoc]

/-- The six bits 13:8 of a command word are `OP` and the reserved-zero bits of the helpers. -/
theorem opField_midField_of_top {y : BitVec 6} (h : w.extractLsb' 8 6 = y) :
    opField w = y.extractLsb' 3 3 ∧ midField w = y.extractLsb' 0 3 := by
  subst h
  rw [extractLsb'_extractLsb'_of_fits w (by omega), extractLsb'_extractLsb'_of_fits w (by omega)]
  exact ⟨rfl, rfl⟩

/-- A helper's word with a reserved-zero bit set selects no command (30_encoding.md R39). -/
theorem decode_helper_reserved (hop : opField w = 1#3 ∨ opField w = 2#3) (hmid : midField w ≠ 0#3) :
    ∃ e, decode w = .error e :=
  (reservedWord_iff_decode_error w).1 (.inr (.inr (.inl ⟨hop, hmid⟩)))

/-- An operand above a byte is what either helper records on a live instance (41_helpers.md R64). -/
theorem exec_helper_fault (hl : s.live = true) (hx : x > 255) :
    exec (.popcnt x) s = .next (recordFault (.helperRange x) s) ∧
    exec (.byteimb x) s = .next (recordFault (.helperRange x) s) := by
  simp [exec, execPopcnt, execByteimb, helperFault_high hx, hl]

/-- Settles O34: the word's fields, the range check, and the count, which 4 bits hold. -/
theorem popcntResult : Obligations.PopcntResult := by
  refine ⟨?word, ?reserved, ?range, ?result⟩
  case word =>
    intro w hw
    obtain ⟨hop, hmid⟩ := opField_midField_of_top hw
    exact decode_popcnt hop hmid
  case reserved => exact fun w hop hmid => decode_helper_reserved (.inl hop) hmid
  case range => exact fun s x hl hx => (exec_helper_fault hl hx).1
  case result =>
    intro s x hl hx
    have hn := toNat_count (byteOf x)
    exact ⟨_, exec_popcnt_live hl hx, hn, hn.trans_le (popcount_le _)⟩

/-- Settles O35: the word's fields, the range check, and the imbalance, which 5 signed bits hold. -/
theorem byteimbResult : Obligations.ByteimbResult := by
  refine ⟨?word, ?reserved, ?range, ?result⟩
  case word =>
    intro w hw
    obtain ⟨hop, hmid⟩ := opField_midField_of_top hw
    exact decode_byteimb hop hmid
  case reserved => exact fun w hop hmid => decode_helper_reserved (.inr hop) hmid
  case range => exact fun s x hl hx => (exec_helper_fault hl hx).2
  case result =>
    intro s x hl hx
    have hb := toInt_imbalance (byteOf x)
    obtain ⟨_, hlow, hhigh⟩ := byteImbalance_range (byteOf x)
    exact ⟨_, exec_byteimb_live hl hx, hb, hb.symm ▸ hlow, hb.symm ▸ hhigh⟩

end Sys2Proof.Machine
end

section
/-! SUPPORT. Diagnostic reads and helpers in a stream (42_lifecycle_diag.md R76, 70_reset_and_hazards.md R96): they write only `out`, which no command reads. -/

namespace Sys2Proof.Machine

variable {s t : State} {i : Instr}

/-- A helper or a diagnostic read emits no symbol. -/
theorem emittedSymbol_of_observesOnly (t : State) (hi : observesOnly i = true) : emittedSymbol i t = none := by
  cases i with
  | encCtl => cases hi
  | encDat => cases hi
  | _ => rfl

/-- What the command before drove makes no difference to any command: each writes `out` and none reads it. -/
theorem exec_drive (i : Instr) (v : Out) (s : State) : exec i (drive v s) = exec i s := by
  cases i <;> rfl

/-- What the command before drove makes no difference to the symbols of a stream. -/
theorem emittedSymbols_drive (ops : List Instr) (v : Out) (s : State) :
    emittedSymbols ops (drive v s) = emittedSymbols ops s := by
  cases ops with
  | nil => rfl
  | cons i rest => simp only [emittedSymbols, exec_drive]

/-- What the command before drove makes no difference to the end of a stream but for `out`, which an empty stream leaves. -/
theorem runOps_of_drive {ops : List Instr} {v : Out} (h : runOps ops (drive v s) = .next t) :
    ∃ o, runOps ops s = .next { t with out := o } := by
  cases ops with
  | nil =>
    cases h
    exact ⟨s.out, rfl⟩
  | cons i rest =>
    simp only [runOps, exec_drive] at h
    exact ⟨t.out, h⟩

/-- No stream ends without a fault when it starts on a stopped instance (60_exceptions.md R83). -/
theorem fault_none_of_runOps {ops : List Instr} (hc : s.created = true) (h : runOps ops s = .next t)
    (hf : t.fault = none) : s.fault = none := by
  cases ops with
  | nil =>
    cases h
    exact hf
  | cons i rest =>
    cases hs : s.fault with
    | none => rfl
    | some r => simp [runOps, exec_stopped i hc hs] at h

/-- A helper or a diagnostic read that left no fault drove a value and did no more. -/
theorem exec_observed_of_fault_none (h : exec i s = .next t) (hi : observesOnly i = true) (hf : t.fault = none) :
    ∃ v, t = drive v s := by
  obtain ⟨r, rfl⟩ | hv := execNext_observed (exec_next h) hi
  · cases hf
  · exact hv

/-- The commands of a stream but for its reads and helpers. -/
def encoderOps (ops : List Instr) : List Instr := ops.filter fun i => !observesOnly i

theorem encoderOps_cons_observed (rest : List Instr) (hi : observesOnly i = true) :
    encoderOps (i :: rest) = encoderOps rest :=
  List.filter_cons_of_neg (by simp [hi])

theorem encoderOps_cons_kept (rest : List Instr) (hi : observesOnly i = false) :
    encoderOps (i :: rest) = i :: encoderOps rest :=
  List.filter_cons_of_pos (by simp [hi])

/-- A stream that runs without a fault emits the same symbols without its reads and helpers, and ends in the same state but for
`out`, by induction on the stream: a read or a helper only drives `out`, and the stream after it does not depend on that. -/
theorem runOps_encoderOps (ops : List Instr) (h : runOps ops s = .next t) (hf : t.fault = none) :
    emittedSymbols (encoderOps ops) s = emittedSymbols ops s ∧
      ∃ o, runOps (encoderOps ops) s = .next { t with out := o } := by
  induction ops generalizing s with
  | nil => exact ⟨rfl, t.out, h⟩
  | cons i rest ih =>
    cases hu : exec i s with
    | fault r => simp [runOps, hu] at h
    | refused r => simp [runOps, hu] at h
    | next u =>
      have hrest : runOps rest u = .next t := by simpa only [runOps, hu] using h
      obtain ⟨hsymbols, o, hrun⟩ := ih hrest
      cases hi : observesOnly i with
      | false =>
        rw [encoderOps_cons_kept rest hi]
        simp only [emittedSymbols, runOps, hu, hsymbols, true_and]
        exact ⟨o, hrun⟩
      | true =>
        have hfu : u.fault = none := fault_none_of_runOps (exec_next_created hu) hrest hf
        obtain ⟨v, rfl⟩ := exec_observed_of_fault_none hu hi hfu
        rw [encoderOps_cons_observed rest hi]
        rw [emittedSymbols_drive] at hsymbols
        obtain ⟨o', hrun'⟩ := runOps_of_drive hrun
        refine ⟨?_, o', hrun'⟩
        simp [emittedSymbols, hu, emittedSymbol_of_observesOnly _ hi, hsymbols]

/-- Settles O42: the two runs end in states that differ at most in `out`. -/
theorem insertedReadsChangeNothing : Obligations.InsertedReadsChangeNothing := by
  intro ops s t h hf
  obtain ⟨hsymbols, o, hrun⟩ := runOps_encoderOps ops h hf
  exact ⟨hsymbols, _, hrun, rfl, rfl, rfl, rfl, rfl, hf, rfl⟩

end Sys2Proof.Machine
end

section
/-! SUPPORT. The lifecycle and diagnostic commands (42_lifecycle_diag.md R73 to R75): their words, the reserved ones among them, and what a read finds after the command before it. -/

namespace Sys2Proof.Machine

variable {s t : State} {i : Instr} {w : CmdWord} {y : Symbol}

/-- A word of RDDISP, RDLAST or INIT with a reserved-zero bit set selects no command (30_encoding.md R39). -/
theorem decode_lifecycle_reserved (hop : opField w = 3#3 ∨ opField w = 4#3 ∨ opField w = 5#3) (hlow : lowField w ≠ 0#11) :
    ∃ e, decode w = .error e :=
  (reservedWord_iff_decode_error w).1 (.inr (.inr (.inr ⟨hop, hlow⟩)))

/-- A command that left no fault left a live instance. -/
theorem exec_next_live (h : exec i s = .next t) (hf : t.fault = none) : t.live = true :=
  (live_iff t).2 ⟨exec_next_created h, hf⟩

/-- A command that left a fault did nothing but record it (60_exceptions.md R83). -/
theorem execNext_of_fault (h : ExecNext i s t) (hf : t.fault ≠ none) : ∃ r, t = recordFault r s := by
  cases h with
  | faulted r => exact ⟨r, rfl⟩
  | control _ _ hl => exact absurd ((live_iff s).1 hl).2 hf
  | data _ _ hl => exact absurd ((live_iff s).1 hl).2 hf
  | observed _ hl => exact absurd ((live_iff s).1 hl).2 hf
  | created => exact absurd rfl hf

/-- A command that drove nothing emitted no symbol. -/
theorem emittedSymbol_of_out_none (i : Instr) (h : t.out = none) : emittedSymbol i t = none := by
  cases i <;> simp [emittedSymbol, emittedData, h]

/-- The symbol a command emitted is in `LS` of a live instance (40_encode.md R44). -/
theorem execNext_emittedSymbol (h : ExecNext i s t) (hy : emittedSymbol i t = some y) : t.live = true ∧ t.ls = some y := by
  cases h with
  | faulted r => cases (emittedSymbol_of_out_none i (recordFault_out s r)).symm.trans hy
  | control _ _ hl hi =>
    subst hi
    cases hy
    exact ⟨hl, rfl⟩
  | data _ _ hl hi =>
    subst hi
    cases hy
    exact ⟨hl, rfl⟩
  | observed _ _ hi => cases (emittedSymbol_of_observesOnly _ hi).symm.trans hy
  | created => cases (emittedSymbol_of_out_none i (createInstance_out s)).symm.trans hy

/-- INIT, and ENC.CTL without a fault, leave `RD` at 0. -/
theorem exec_rd_zero (h : exec i s = .next t) (hf : t.fault = none) (hi : i = .init ∨ ∃ c d, i = .encCtl c d) :
    t.rd = 0 := by
  obtain rfl | ⟨c, d, rfl⟩ := hi
  · obtain rfl := execNext_init (exec_next h)
    rfl
  · obtain rfl := checked_next_of_fault_none h hf
    rfl

/-- Settles O38: INIT is the creation, which a live instance and one not yet created take and a stopped one does not. -/
theorem initResult : Obligations.InitResult := by
  refine ⟨decode_init rfl rfl, fun _ hop => decode_lifecycle_reserved (.inr (.inr hop)), ?live, ?uncreated,
    fun _ _ => exec_init_idempotent, fun _ _ => exec_stopped .init⟩
  case live =>
    intro s hl
    obtain ⟨hc, hf⟩ := (live_iff s).1 hl
    rw [exec_init_live hl, createInstance, hc, hf]
  case uncreated => exact fun s hc => exec_init_uncreated hc

/-- Settles O39: a command that left no fault left a live instance, where RDDISP drives the `RD` it left. -/
theorem rddispResult : Obligations.RddispResult := by
  refine ⟨decode_rddisp rfl rfl, fun _ hop => decode_lifecycle_reserved (.inl hop), fun _ => exec_rddisp_live, ?after⟩
  case after =>
    intro s t i h hf
    refine ⟨_, exec_rddisp_live (exec_next_live h hf), rfl, fun hi => ?_⟩
    rw [drive_out, exec_rd_zero h hf hi]

/-- Settles O40: RDLAST drives the symbol in `LS`, where an ENC left the one it emitted and a faulting command the one it
found. -/
theorem rdlastResult : Obligations.RdlastResult := by
  refine ⟨decode_rdlast rfl rfl, fun _ hop => decode_lifecycle_reserved (.inr (.inl hop)), ?empty,
    fun _ _ => exec_rdlast_live, ?afterEnc, ?afterFault⟩
  case empty => exact fun s hl hv => exec_rdlast_empty hl (Option.isNone_iff_eq_none.1 (by simpa [State.lsv] using hv))
  case afterEnc =>
    intro s t i y h hy
    obtain ⟨hl, hls⟩ := execNext_emittedSymbol (exec_next h) hy
    exact exec_rdlast_live hl hls
  case afterFault =>
    intro s t i h hf
    obtain ⟨r, rfl⟩ := execNext_of_fault (exec_next h) hf
    rfl

end Sys2Proof.Machine
end

section
/-! SUPPORT. Faults (60_exceptions.md): when each is due (R81), which one a command records (R82), what recording it does and leaves (R83), and where it ends a run (R79). -/

namespace Sys2Proof.Machine

variable {s t u : State} {i : Instr} {r : FaultRecord} {w : CmdWord}

/-- The cause of each fault an operation can raise, and its info (60_exceptions.md R81). -/
def FaultDue (i : Instr) (s : State) : FaultRecord → Prop
  | .dataRange v => dataInput i = some v ∧ v > 255
  | .controlRange v => controlInput i = some v ∧ v > 3
  | .helperRange v => helperInput i = some v ∧ v > 255
  | .reservedCommand _ => False
  | .noValue => i = .rdlast ∧ s.lsv = false

/-- The rules' list holds exactly the faults that are due. -/
theorem mem_operationFaults : r ∈ operationFaults i s ↔ FaultDue i s r := by
  cases r <;> simp [operationFaults, FaultDue, Option.filter_eq_some_iff]

/-- The helper operand of a well-formed command is in range. -/
theorem helperInput_le_of_wf {v : Nat} (h : i.wf = true) (hv : helperInput i = some v) : v ≤ 255 := by
  cases i with
  | popcnt =>
    cases hv
    exact (wf_popcnt v).1 h
  | byteimb =>
    cases hv
    exact (wf_byteimb v).1 h
  | _ => cases hv

/-- With the inputs in range only NO_VALUE can be due. -/
theorem eq_noValue_of_faultDue (hwf : i.wf = true) (h : FaultDue i s r) : r = .noValue := by
  obtain ⟨hdata, hcontrol⟩ := inputs_in_range_of_wf hwf
  cases r with
  | dataRange v => exact absurd (hdata v h.1) (Nat.not_le.2 h.2)
  | controlRange v => exact absurd (hcontrol v h.1) (Nat.not_le.2 h.2)
  | helperRange v => exact absurd (helperInput_le_of_wf hwf h.1) (Nat.not_le.2 h.2)
  | reservedCommand => exact h.elim
  | noValue => rfl

/-- A live instance records the first fault of the rules' list (60_exceptions.md R82). -/
theorem exec_of_operationFaults_cons {others : List FaultRecord} (hl : s.live = true)
    (h : operationFaults i s = r :: others) : exec i s = .next (recordFault r s) := by
  obtain ⟨_, _, hexec⟩ := exec_live i s hl
  rwa [h] at hexec

/-- A live instance completes a command to which the rules give no fault (60_exceptions.md R78). -/
theorem exec_of_operationFaults_nil (hl : s.live = true) (h : operationFaults i s = []) :
    ∃ t, exec i s = .next t ∧ t.fault = none := by
  obtain ⟨t, hf, hexec⟩ := exec_live i s hl
  rw [h] at hexec
  exact ⟨t, hexec, hf⟩

/-- A command that left a fault found a live instance, where that fault was due, and only recorded it. -/
theorem exec_next_of_fault (h : exec i s = .next t) (hf : t.fault = some r) :
    s.live = true ∧ FaultDue i s r ∧ t = recordFault r s := by
  have hl : s.live = true := by
    cases exec_next h with
    | faulted _ live => exact live
    | control _ _ live => exact live
    | data _ _ live => exact live
    | observed _ live => exact live
    | created => cases hf
  refine ⟨hl, ?_⟩
  cases hfaults : operationFaults i s with
  | nil =>
    obtain ⟨t', ht', hnone⟩ := exec_of_operationFaults_nil hl hfaults
    cases ht'.symm.trans h
    cases hnone.symm.trans hf
  | cons r' others =>
    cases (exec_of_operationFaults_cons hl hfaults).symm.trans h
    cases hf
    exact ⟨mem_operationFaults.1 (hfaults ▸ List.mem_cons_self), rfl⟩

/-- Settles O44: RDLAST before the first symbol is the one well-formed command to which the rules give a fault. -/
theorem everyCommandAtAnyTime : Obligations.EveryCommandAtAnyTime := by
  intro s i hl hwf hlsv
  have hnone : operationFaults i s = [] := by
    refine List.eq_nil_iff_forall_not_mem.2 fun r hr => ?_
    have hdue := mem_operationFaults.1 hr
    obtain rfl := eq_noValue_of_faultDue hwf hdue
    obtain ⟨hi, hempty⟩ := hdue
    cases hempty.symm.trans (hlsv hi)
  obtain ⟨t, ht, hf⟩ := exec_of_operationFaults_nil hl hnone
  exact ⟨t, ht, exec_next_live ht hf, execNext_pending (exec_next ht)⟩

/-- A reserved word that answers a next state is recorded. -/
theorem execReserved_next (h : execReserved w s = .next t) : t = recordFault (.reservedCommand w) s := by
  obtain ⟨_, hfault⟩ := takeCommand_next h
  cases hfault
  rfl

/-- Settles O46: a recorded fault was due, and a word's command is well-formed, so that only NO_VALUE can be due. -/
theorem faultCodes : Obligations.FaultCodes := by
  refine ⟨fun _ => rfl, fun _ => rfl, fun _ => rfl, fun _ => rfl, rfl, ?reserved, ?word, ?due⟩
  case reserved =>
    intro s t w h
    rw [execReserved_next h, recordFault_fault]
  case word =>
    intro s t w i r hd h hf
    obtain ⟨_, hdue, _⟩ := exec_next_of_fault h hf
    obtain rfl := eq_noValue_of_faultDue (wf_encode_of_decode hd).1 hdue
    decide
  case due =>
    intro s t i r h hf
    obtain ⟨_, hdue, _⟩ := exec_next_of_fault h hf
    cases r <;> exact hdue

/-- Settles O47: a reserved word is recorded by the step itself, an operation records the head of the rules' list, and only
POPCNT and BYTEIMB, which are no ENC, have a helper operand. -/
theorem faultPriority : Obligations.FaultPriority := by
  refine ⟨fun _ _ _ => step_reserved, fun _ _ _ _ => exec_of_operationFaults_cons, fun _ _ => exec_of_operationFaults_nil,
    ?exclusive⟩
  case exclusive =>
    rintro i ⟨hhelper, henc⟩
    cases i with
    | popcnt => simp [dataInput, controlInput] at henc
    | byteimb => simp [dataInput, controlInput] at henc
    | _ => cases hhelper

/-- The step of a stopped instance is stuck, or finds no command to take. -/
theorem step_stopped (hc : s.created = true) (hf : s.fault = some r) :
    step s = .fault (.stopped r) ∨ step s = .refused .noCommand := by
  cases hp : s.pending with
  | nil => exact .inr (step_of_pending_nil hp)
  | cons c rest =>
    left
    simp only [step, nextCommand, hp]
    cases readCommand c with
    | ok i => exact exec_stopped i hc hf
    | error w => exact takeCommand_stopped hc hf

/-- Settles O48: a command that left a fault only recorded it; a stopped encoder takes nothing, and a turn of one
leaves the others. -/
theorem faultStopsInstance : Obligations.FaultStopsInstance := by
  refine ⟨?effect, ?stopped, fun _ sys _ _ => stepAt_other sys⟩
  case effect =>
    intro s t i r h hf
    obtain ⟨hl, _, rfl⟩ := exec_next_of_fault h hf
    exact ⟨rfl, ((live_iff s).1 hl).2⟩
  case stopped =>
    intro s r hc hf
    refine ⟨fun i => exec_stopped i hc hf, fun _ => takeCommand_stopped hc hf, ?_⟩
    obtain hstep | hstep := step_stopped hc hf <;> simp [stepOrStay, hstep]

/-- A run of one stream after another continues from the state the first leaves. -/
theorem runOps_append {before : List Instr} (after : List Instr) (h : runOps before s = .next u) :
    runOps (before ++ after) s = runOps after u := by
  induction before generalizing s with
  | nil =>
    cases h
    rfl
  | cons i rest ih =>
    cases hi : exec i s with
    | next v =>
      simp only [List.cons_append, runOps, hi] at h ⊢
      exact ih h
    | fault => simp [runOps, hi] at h
    | refused => simp [runOps, hi] at h

/-- On a stopped instance a stream with a command left is stuck at it (60_exceptions.md R83). -/
theorem runOps_stopped {ops : List Instr} (hc : s.created = true) (hf : s.fault = some r) (hops : ops ≠ []) :
    runOps ops s = .fault (.stopped r) := by
  cases ops with
  | nil => exact absurd rfl hops
  | cons i rest => simp only [runOps, exec_stopped i hc hf]

/-- Settles O49: the run reaches the state that the commands before leave, where the faulting one is recorded; a command after
it finds a stopped instance. -/
theorem faultsArePrecise : Obligations.FaultsArePrecise := by
  intro before after i s u t r hbefore h hf
  have hrun : runOps (before ++ i :: after) s = runOps after t := by
    rw [runOps_append (i :: after) hbefore]
    simp only [runOps, h]
  have hc : t.created = true := exec_next_created h
  obtain ⟨_, _, rfl⟩ := exec_next_of_fault h hf
  refine ⟨rfl, rfl, rfl, rfl, rfl, rfl, ?last, fun hafter => hrun.trans (runOps_stopped hc hf hafter)⟩
  case last =>
    rintro rfl
    exact hrun

end Sys2Proof.Machine
end

section
/-! SUPPORT. Reset (70_reset_and_hazards.md): what an instance takes before its INIT (R91), and which commands bring `RD` to 0 on demand (R92). -/

namespace Sys2Proof.Machine

variable {s : State} {i : Instr}

/-- An instance that does not exist refuses every command but INIT. -/
theorem exec_uncreated (hc : s.created = false) (hi : i ≠ .init) : exec i s = .refused .beforeInit := by
  cases i with
  | rdlast =>
    simp only [exec, execRdlast]
    split <;> exact checked_uncreated hc
  | init => exact absurd rfl hi
  | _ => exact takeCommand_uncreated hc

/-- Settles O43: every command but INIT, and a reserved word, is offered to an instance that takes none; INIT is the creation. -/
theorem commandBeforeInitRefused : Obligations.CommandBeforeInitRefused :=
  ⟨fun _ _ => exec_uncreated, fun _ _ => takeCommand_uncreated,
    fun s hc => ⟨createInstance s, exec_init_uncreated hc, createInstance_live s⟩⟩

/-- An instance in active at disparity `rd`: created, with one symbol emitted since. -/
def activeAt (rd : Int) : State := emitSymbol 0 rd .active State.reset

theorem activeAt_inv {rd : Int} (h : legalDisparity rd) : (activeAt rd).Inv :=
  ⟨h, nofun, fun _ => rfl⟩

/-- No data value brings every legal disparity to 0: an unbalanced code leaves its imbalance when it starts from 0, and a
balanced code leaves 8 where it found it (40_encode.md R56). -/
theorem exists_dataDisparity_ne_zero (d : Byte) : ∃ rd, legalDisparity rd ∧ dataDisparity rd d ≠ 0 := by
  unfold dataDisparity
  by_cases hb : imbalanceOf (minimize d) = 0
  · have hcases := balance_cases 8 (minimize d)
    exact ⟨8, by decide, by omega⟩
  · have hcases := balance_cases 0 (minimize d)
    exact ⟨0, by decide, by omega⟩

/-- The helpers and the diagnostic reads leave a disparity of 8 where they found it. -/
theorem exec_observed_activeAt (hwf : i.wf = true) (hi : observesOnly i = true) :
    ∃ t, exec i (activeAt 8) = .next t ∧ t.rd ≠ 0 := by
  obtain ⟨t, ht, hlive, _⟩ := everyCommandAtAnyTime (activeAt 8) i rfl hwf fun _ => rfl
  obtain ⟨v, rfl⟩ := exec_observed_of_fault_none ht hi ((live_iff t).1 hlive).2
  exact ⟨_, ht, (by decide : (activeAt 8).rd ≠ 0)⟩

/-- Every command in range but INIT and ENC.CTL leaves a nonzero `RD` from some legal state. -/
theorem exists_exec_rd_ne_zero (hwf : i.wf = true) (hinit : i ≠ .init) (hctl : ∀ c d, i ≠ .encCtl c d) :
    ∃ rd t, legalDisparity rd ∧ exec i (activeAt rd) = .next t ∧ t.rd ≠ 0 := by
  cases i with
  | encCtl c d => exact absurd rfl (hctl c d)
  | encDat d c =>
    obtain ⟨hd, hc⟩ := (wf_encDat d c).1 hwf
    obtain ⟨rd, hlegal, hne⟩ := exists_dataDisparity_ne_zero (byteOf d)
    exact ⟨rd, _, hlegal, exec_encDat_live rfl hd hc, hne⟩
  | init => exact absurd rfl hinit
  | _ =>
    obtain ⟨t, ht, hne⟩ := exec_observed_activeAt hwf rfl
    exact ⟨8, t, by decide, ht, hne⟩

/-- Settles O14: INIT and ENC.CTL in range complete, and so leave 0; every other command leaves a nonzero `RD` from some legal
state. -/
theorem onlyControlAndInitResetDisparity : Obligations.OnlyControlAndInitResetDisparity := by
  intro i hwf
  constructor
  · intro hzero
    by_contra hi
    obtain ⟨hinit, hctl⟩ := not_or.1 hi
    obtain ⟨rd, t, hlegal, ht, hne⟩ := exists_exec_rd_ne_zero hwf hinit fun c d hcd => hctl ⟨c, d, hcd⟩
    exact hne (hzero (activeAt rd) t rfl (activeAt_inv hlegal) ht)
  · intro hi s t hl _ ht
    have hlsv : i = .rdlast → s.lsv = true := by
      rintro rfl
      simp at hi
    obtain ⟨t', ht', hlive, _⟩ := everyCommandAtAnyTime s i hl hwf hlsv
    cases ht'.symm.trans ht
    exact exec_rd_zero ht ((live_iff t).1 hlive).2 hi

end Sys2Proof.Machine
end

section
/-! SUPPORT. A table of self-balancing pairs, replayed whole (70_reset_and_hazards.md R95). -/

namespace Sys2Proof.Machine

variable {s : State}

/-- ENC.DAT of a byte, on a live instance. -/
theorem exec_encDat_byte (d : Byte) (hl : s.live = true) :
    exec (.encDat d.toNat 0) s = .next (emitSymbol (dataSymbol s.rd d) (dataDisparity s.rd d) .active s) := by
  have hd : byteOf d.toNat = d := BitVec.ofNat_toNat 8 d
  rw [exec_encDat_live hl (Nat.le_of_lt_succ d.isLt) (Nat.zero_le 3), hd]

/-- A pair takes a live instance from `RD` = 0 back to `RD` = 0, live and with the caller's stream untouched (40_encode.md
R61). -/
theorem exec_pair (d : Byte) (hl : s.live = true) (hrd : s.rd = 0) :
    ∃ t u, exec (.encDat d.toNat 0) s = .next t ∧ exec (.encDat (d ^^^ 1#8).toNat 0) t = .next u ∧
      u.live = true ∧ u.rd = 0 ∧ u.pending = s.pending := by
  refine ⟨_, _, exec_encDat_byte d hl, exec_encDat_byte (d ^^^ 1#8) hl, hl, ?_, rfl⟩
  rw [emitSymbol_rd, emitSymbol_rd, hrd, dataDisparity_pair]

/-- Settles O54, by induction on the table: each pair hands a live instance at `RD` = 0 to the next. -/
theorem pairTableStaysBalanced : Obligations.PairTableStaysBalanced := by
  intro ds
  induction ds with
  | nil => exact fun s hl hrd => ⟨s, rfl, hl, hrd, rfl⟩
  | cons d ds ih =>
    intro s hl hrd
    obtain ⟨_, u, hfirst, hsecond, hul, hurd, hpending⟩ := exec_pair d hl hrd
    simpa only [pairStream, runOps, hfirst, hsecond, hpending] using ih u hul hurd

end Sys2Proof.Machine
end
